-- ==== Sys2Proof/Word.lean ====
section
/-! DEFINITION. The word and byte types of CORE (00_scope.md R8, R9). -/

namespace Sys2Proof

/-- One byte of memory, of an instruction or of the output: 8 bits (R16, R40). -/
abbrev Byte := BitVec 8

/-- A register value, an address or an immediate after extension: `XLEN` = 32 bits (R8, R12).
Register values are unsigned; `BitVec.toNat` is the unsigned reading and `BitVec.toInt` is `signed32` of R9. -/
abbrev Word := BitVec 32

end Sys2Proof
end

