-- ==== Sys2Proof/Config.lean ====
section
/-! DEFINITION. The implementation parameters of CORE (00_scope.md R8) and the two values the spec leaves open. -/

namespace Sys2Proof

/-- The two readings of "one character" that R75 allows for a low byte of 0x80 or more (D5). -/
inductive OutByteEncoding where
  /-- The one byte itself. -/
  | raw
  /-- The two-byte UTF-8 form of the code point U+0080 to U+00FF. -/
  | utf8
  deriving DecidableEq, Repr, Inhabited

namespace Config

/-- `MEM_SIZE`: the memory's capacity in bytes; valid addresses are 0 to `memSize - 1` (R8, R16).
The number is the spec's own decision D15 (log 19). -/
abbrev memSize : Nat := 4096

/-- `NREGS`: the number of registers (R8, R12; D15, log 19). -/
abbrev nregs : Nat := 16

/-- `OUT_BYTE_ENCODING`, which the spec leaves OPEN (R8, D5, U4).
It has no body: every statement holds under both values.
DESIGN CHOICE (log 4): a parameter, not a value. -/
opaque outByteEncoding : OutByteEncoding

/-- The free value of decision D6 (R74, U5): whether the `n`th draw after an IoFailure leaves `x[0]` advanced
(`true`: `ip + w`) or not (`false`: `ip`).
It has no body: no proof can see which. DESIGN CHOICE (log 5): one draw per failing step, numbered by `State.draws`. -/
opaque ipAdvancedByIoFailure : Nat → Bool

end Config

/-- A register number, `r0` to `r15` (R12). An operand byte of 16 or more names no register (R44). -/
abbrev Reg := Fin Config.nregs

/-- `IP_INDEX`: register 0 is the instruction pointer (R8, R13). -/
abbrev Config.ipIndex : Reg := 0

end Sys2Proof
end

