-- ==== Sys2Proof/Machine/State.lean ====
section
/-! DEFINITION. The state of CORE (10_state.md R12 to R22), the sink it writes to (43_io_and_halt.md R74), and the reasons
a step can end without a next state. -/

namespace Sys2Proof.Machine

/-- The sink's own error, "without interpretation" (R80, U7): CORE carries it and never reads it.
DESIGN CHOICE (log 9): the tag stands for whatever value the sink gives. -/
structure SinkError where
  tag : Nat
  deriving DecidableEq, Repr

/-- The four error kinds of R79. An error records only its kind, and IoFailure the sink's own error (R80). -/
inductive ErrorKind where
  | invalidMemoryAccess
  | invalidRegisterAccess
  | invalidInstruction
  | ioFailure (e : SinkError)
  deriving DecidableEq, Repr

/-- The run state (R17). -/
inductive RunState where
  | running
  | halted
  | errored (kind : ErrorKind)
  deriving DecidableEq, Repr

/-- The sink's answer to one SINK_WRITE request (R74). -/
inductive SinkAnswer where
  /-- ok: "it has accepted all of `s`, in order". -/
  | ok
  /-- fail: it accepted the first `accepted` bytes (all, if the string is shorter) and reports its own error `e`
  (R74: "any prefix of `s`, possibly empty, possibly all of it"; D7, U6). -/
  | fail (accepted : Nat) (e : SinkError)
  /-- The sink never answers: the step is pending for ever (R74: "The wait has no bound"; U8). -/
  | never
  deriving DecidableEq, Repr

/-- How the sink answers the coming requests: the answers of `script` in order, then `rest` to every further one.
DESIGN CHOICE (log 6): the sink is an input of STEP (R50); here its answers stand in the state as plain data, and a
statement about every state is a statement about every sink. -/
structure Sink where
  script : List SinkAnswer
  rest : SinkAnswer
  deriving DecidableEq, Repr

/-- Memory as its non-zero bytes (R16, R22): pairs of an address and a byte, in the canonical form `Memory.wf`
of Machine/Ops.lean. -/
structure Memory where
  cells : List Host.Cell
  deriving DecidableEq, Repr

/-- The complete state of CORE (R22), with the sink's side of the output port.
The spec's state: `regs`, `mem`, `run`. The model's own: `accepted`, `sink`, `draws` (INVENTORY.md, State). -/
structure State where
  /-- `x[0]` to `x[15]`; `x[0]` is the IP (R12, R13). -/
  regs : Vector Word Config.nregs
  /-- `mem[0]` to `mem[4095]` (R16). -/
  mem : Memory
  /-- Running, Halted or Errored(kind) (R17). -/
  run : RunState
  /-- The bytes the sink has accepted, oldest first (R60, R74). DESIGN CHOICE (log 16). -/
  accepted : List Byte
  /-- How the sink will answer (R74). DESIGN CHOICE (log 6). -/
  sink : Sink
  /-- How many draws of decision D6 were made (R74). DESIGN CHOICE (log 5). -/
  draws : Nat
  deriving DecidableEq, Repr

/-- Why the machine stops inside a step. The spec's four error kinds are none of these: they end in a next state whose
run state is Errored(kind) (R81; log 10). -/
inductive Fault where
  /-- Raised by `out` and `out_number` when the sink never answers their request: the step has no end (R74, U8 "stuck").
  Safe: nothing can be proved of a state after it. Log 8. -/
  | sinkNeverAnswers
  deriving DecidableEq, Repr

/-- Why no step is made. -/
inductive Refusal where
  /-- The instruction has no meaning in this model yet. Raised by no arm now. Safe. -/
  | notModelled (mnemonic : String)
  /-- A step or an instruction asked for in Halted or Errored (R61, U1, U2): "the request is refused".
  Raised by `step` and by every meaning. Safe for a host that keeps its duty never to ask. Log 11. -/
  | stepOutsideRunning
  deriving DecidableEq, Repr

/-- What a step or a meaning answers. -/
abbrev Result := Host.Outcome State Fault Refusal

/-- The machine right after reset (R22, R93): registers 0, memory 0 (the empty image; log 14), run state Running.
The sink's side is the model's choice: nothing accepted (log 16), every request answered ok (log 6), no draw made (log 5). -/
def State.reset : State where
  regs := Vector.replicate Config.nregs 0
  mem := ⟨[]⟩
  run := .running
  accepted := []
  sink := ⟨[], .ok⟩
  draws := 0

end Sys2Proof.Machine
end

