-- ==== Sys2Proof/Machine/Ops.lean ====
section
/-! DEFINITION. The named operations of CORE: memory (20_memory.md R23 to R33), registers (10_state.md R12 to R15),
raising an error (60_exceptions.md R81) and the sink port (43_io_and_halt.md R74). -/

namespace Sys2Proof.Machine

/-! ### Memory -/

/-- What an address that is not listed reads as: the byte every address holds after reset beyond the image (R22, R93). -/
def Memory.unlisted : Byte := 0

/-- The canonical form: addresses strictly rising, none outside `0` to `memSize - 1`, and no byte listed that equals what
an unlisted address reads as. Equal memories in this form are equal data. -/
abbrev Memory.wf (m : Memory) : Prop :=
  m.cells.Pairwise (fun x y => x.1 < y.1) ∧ ∀ c ∈ m.cells, c.1 < Config.memSize ∧ c.2 ≠ Memory.unlisted

/-- The byte a list of cells gives an address. -/
def readCells : List Host.Cell → Nat → Byte
  | [], _ => Memory.unlisted
  | (k, v) :: rest, a => if k = a then v else readCells rest a

/-- A list of cells with the byte at one address replaced, the canonical form kept. -/
def writeCells : List Host.Cell → Nat → Byte → List Host.Cell
  | [], a, b => if b = Memory.unlisted then [] else [(a, b)]
  | (k, v) :: rest, a, b =>
    if k < a then (k, v) :: writeCells rest a b
    else
      let tail := if k = a then rest else (k, v) :: rest
      if b = Memory.unlisted then tail else (a, b) :: tail

/-- `mem[a]`, for an address that exists (R16, R33). Every use stands behind a range check (R52, R54, R29);
log 13 says what the function gives elsewhere. -/
def Memory.read (m : Memory) (a : Nat) : Byte := readCells m.cells a

/-- `mem[a] <- b`, for an address that exists (R16, R33). -/
def Memory.write (m : Memory) (a : Nat) (b : Byte) : Memory := ⟨writeCells m.cells a b⟩

/-- The bytes of a list placed at rising addresses from `a` (R93; R26). -/
def Memory.writeBytes (m : Memory) (a : Nat) : List Byte → Memory
  | [] => m
  | b :: rest => (m.write a b).writeBytes (a + 1) rest

/-- The `n` bytes from address `a`, lowest address first (R27). -/
def Memory.readBytes (m : Memory) (a : Nat) : Nat → List Byte
  | 0 => []
  | n + 1 => m.read a :: m.readBytes (a + 1) n

/-- `MemRead(a, 4)`: the little-endian word at `a` (R25). -/
def Memory.readWord (m : Memory) (a : Nat) : Word :=
  m.read (a + 3) ++ m.read (a + 2) ++ m.read (a + 1) ++ m.read a

/-- The four bytes of a word, least significant first (R26). -/
def wordBytes (v : Word) : List Byte :=
  [v.extractLsb' 0 8, v.extractLsb' 8 8, v.extractLsb' 16 8, v.extractLsb' 24 8]

/-- `MemWrite(a, 4, v)`: the word's four bytes at `a` to `a + 3`, little-endian (R26). -/
def Memory.writeWord (m : Memory) (a : Nat) (v : Word) : Memory := m.writeBytes a (wordBytes v)

/-- A 4-byte data access at `a` is in range: `a + 4 <= MEM_SIZE`, an exact sum (R29; D4, log 3). -/
def wordInRange (a : Nat) : Bool := decide (a + 4 ≤ Config.memSize)

/-! ### Registers -/

/-- `x[i]` (R12). -/
def State.reg (s : State) (i : Reg) : Word := s.regs[i]

/-- `x[i] <- v`: all 32 bits are replaced (R12, R14). -/
def State.setReg (s : State) (i : Reg) (v : Word) : State := { s with regs := s.regs.set i v }

/-- The instruction pointer, `x[0]` (R13, R15). -/
def State.ip (s : State) : Word := s.reg Config.ipIndex

/-- The IP advance `x[0] <- ip + w` (R57). -/
def State.advance (s : State) (w : Nat) : State := s.setReg Config.ipIndex (s.ip + BitVec.ofNat 32 w)

/-- The state in another run state, everything else as it was (R17). -/
def State.setRun (s : State) (r : RunState) : State := { s with run := r }

/-- The state with another memory, everything else as it was (R16). -/
def State.setMem (s : State) (m : Memory) : State := { s with mem := m }

/-! ### Ending a step -/

/-- Taking an error: the run state becomes Errored(kind) and nothing else changes; "Nothing is saved anywhere, no mode or
mask changes, and control goes nowhere" (R81; log 10). There is no return from it (R84). -/
def State.raise (s : State) (kind : ErrorKind) : Result := .next (s.setRun (.errored kind))

/-- A step exists only in run state Running; outside it the request is refused (R61; log 11). -/
def whenRunning (s : State) (k : Result) : Result :=
  match s.run with
  | .running => k
  | .halted => .refused .stepOutsideRunning
  | .errored _ => .refused .stepOutsideRunning

/-! ### The sink port -/

/-- The sink's answer to the next request (R74; log 6). -/
def Sink.answer (k : Sink) : SinkAnswer := k.script.headD k.rest

/-- The sink once it has answered one request. -/
def Sink.afterAnswer (k : Sink) : Sink := { k with script := k.script.tail }

/-- The sink accepts bytes, in order, and has answered one request (R74). -/
def State.sinkAccepts (s : State) (bytes : List Byte) : State :=
  { s with accepted := s.accepted ++ bytes, sink := s.sink.afterAnswer }

/-- `x[0]` after an IoFailure of an instruction of width `w`: `ip` or `ip + w`, a draw from the free value
(R74; D6; log 5). -/
def State.drawIp (s : State) (w : Nat) : State :=
  let drawn := if Config.ipAdvancedByIoFailure s.draws then s.ip + BitVec.ofNat 32 w else s.ip
  { s.setReg Config.ipIndex drawn with draws := s.draws + 1 }

/-- `x[0] <- ip + w` and `Emit(bytes)`: one SINK_WRITE request, then Continue, IoFailure, or no end (R74; D6, D7; log 7). -/
def State.emit (s : State) (w : Nat) (bytes : List Byte) : Result :=
  match s.sink.answer with
  | .ok => .next ((s.advance w).sinkAccepts bytes)
  | .fail n e => ((s.drawIp w).sinkAccepts (bytes.take n)).raise (.ioFailure e)
  | .never => .fault .sinkNeverAnswers

end Sys2Proof.Machine
end

