-- ==== Sys2Proof/Machine/Operands.lean ====
section
/-! DEFINITION. The operand forms: the span check (40_sequencer.md R54), a register operand and its check (R44, R55), the
view an operand read has (R56), the immediate (30_encoding.md R45), and what `out` and `out_number` write
(43_io_and_halt.md R75, R78). -/

namespace Sys2Proof.Machine

/-- The span check: the instruction's `w` bytes lie within memory, `ip + w <= MEM_SIZE`, an exact sum (R54; D16, log 19). -/
def checkSpan (w : Nat) (s : State) (k : Result) : Result :=
  if s.ip.toNat + w ≤ Config.memSize then k else s.raise .invalidMemoryAccess

/-- The register check of one operand byte: below 16 it names a register, else InvalidRegisterAccess (R44, R55). -/
def checkReg (r : Byte) (s : State) (k : Reg → Result) : Result :=
  if h : r.toNat < Config.nregs then k ⟨r.toNat, h⟩ else s.raise .invalidRegisterAccess

/-- The data-address check of `load` and `store` (R29, R71; it comes after the register check, R83). -/
def checkWordAt (a : Word) (s : State) (k : Result) : Result :=
  if wordInRange a.toNat then k else s.raise .invalidMemoryAccess

/-- What every handler begins with: a step exists only in Running (R61), and the span check comes first (R55, R83). -/
def handler (w : Nat) (s : State) (k : Result) : Result := whenRunning s (checkSpan w s k)

/-- `view(i)` of an instruction of width `w`: register 0 reads as the address of the next instruction, every other register
as itself (R56; D2, log 1). `s` is the state in which the step begins. -/
def State.view (s : State) (w : Nat) (i : Reg) : Word :=
  if i = Config.ipIndex then s.ip + BitVec.ofNat 32 w else s.reg i

/-- The immediate of `loadimm`: `sext_32(H ++ L)` (R45). -/
def immediate (l h : Byte) : Word := (h ++ l).signExtend 32

/-- The bytes of one character (R75): the low byte itself below 0x80; from 0x80 on by `OUT_BYTE_ENCODING` (D5, log 4). -/
def characterBytes (enc : OutByteEncoding) (b : Byte) : List Byte :=
  if b.toNat < 0x80 then [b]
  else
    match enc with
    | .raw => [b]
    | .utf8 => [0xC0 ||| b >>> 6, 0x80 ||| (b &&& 0x3F)]

/-- The ASCII byte of a decimal digit (R78). -/
def digitByte (d : Nat) : Byte := BitVec.ofNat 8 (0x30 + d)

/-- The last `fuel` decimal digits of `m`, most significant first, with no leading zero. -/
def digitsUpTo : Nat → Nat → List Byte
  | 0, _ => []
  | fuel + 1, m => if m = 0 then [] else digitsUpTo fuel (m / 10) ++ [digitByte (m % 10)]

/-- `DIGITS(m)` (R78), for `1 <= m <= 2^31`: at most ten digits. -/
def digits (m : Nat) : List Byte := digitsUpTo 10 m

/-- `DEC(n)` (R78), for `-2^31 <= n < 2^31`: a minus sign only for a negative number, `0` for zero (D13, log 18). -/
def decimal (n : Int) : List Byte :=
  if n < 0 then 0x2D :: digits n.natAbs else if n = 0 then [0x30] else digits n.natAbs

end Sys2Proof.Machine
end

