-- ==== Sys2Proof/Machine/MemoryOps.lean ====
section
/-! DEFINITION. The memory instructions: store, load (42_memory_ops.md R71 to R73). -/

namespace Sys2Proof.Machine

/-- `store a, b` (R72): the address is the first operand, the value the second. -/
def execStore (a b : Byte) (s : State) : Result :=
  handler 3 s <|
  checkReg a s fun ra =>
  checkReg b s fun rb =>
  checkWordAt (s.view 3 ra) s <|
  .next ((s.advance 3).setMem (s.mem.writeWord (s.view 3 ra).toNat (s.view 3 rb)))

/-- `load a, b` (R73): the destination is the first operand, the address the second. -/
def execLoad (a b : Byte) (s : State) : Result :=
  handler 3 s <|
  checkReg a s fun ra =>
  checkReg b s fun rb =>
  checkWordAt (s.view 3 rb) s <|
  .next ((s.advance 3).setReg ra (s.mem.readWord (s.view 3 rb).toNat))

end Sys2Proof.Machine
end

