-- ==== Sys2Proof/Machine/OutputOps.lean ====
section
/-! DEFINITION. Output and termination: out, exit, out_number (43_io_and_halt.md R74 to R78). -/

namespace Sys2Proof.Machine

/-- `out a` (R75): the low 8 bits of the register, as one character. -/
def execOut (a : Byte) (s : State) : Result :=
  handler 2 s <|
  checkReg a s fun ra =>
  s.emit 2 (characterBytes Config.outByteEncoding ((s.view 2 ra).extractLsb' 0 8))

/-- `exit` (R76): the IP advances and the run state becomes Halted. -/
def execExit (s : State) : Result :=
  handler 1 s <|
  .next ((s.advance 1).setRun .halted)

/-- `out_number a` (R77): the register read as a signed number, in decimal. -/
def execOutNumber (a : Byte) (s : State) : Result :=
  handler 2 s <|
  checkReg a s fun ra =>
  s.emit 2 (decimal (s.view 2 ra).toInt)

end Sys2Proof.Machine
end

