-- ==== Sys2Proof/Machine/Flags.lean ====
section
/-! DEFINITION. The arithmetic of CORE. It has no flags: "No instruction sets a flag as a side effect" (10_state.md R19), so no
flag computation stands here, only the one arithmetic operation (41_alu_and_moves.md R70). -/

namespace Sys2Proof.Machine

/-- 32-bit subtraction modulo 2^32 (R70); no carry, borrow or overflow is recorded (R19, R69). -/
def subWrap (p q : Word) : Word := p - q

end Sys2Proof.Machine
end

