-- ==== Sys2Proof/Machine/RegisterOps.lean ====
section
/-! DEFINITION. The register instructions: move_if, loadimm, sub (41_alu_and_moves.md R67 to R70). -/

namespace Sys2Proof.Machine

/-- `move_if a, b, c` (R67): all three operands are checked whether or not the condition holds. -/
def execMoveIf (a b c : Byte) (s : State) : Result :=
  handler 4 s <|
  checkReg a s fun ra =>
  checkReg b s fun rb =>
  checkReg c s fun rc =>
  let t := s.advance 4
  .next (if s.view 4 rc ≠ 0 then t.setReg ra (s.view 4 rb) else t)

/-- `loadimm a, L, H` (R68): `L` and `H` are not checked. -/
def execLoadimm (a l h : Byte) (s : State) : Result :=
  handler 4 s <|
  checkReg a s fun ra =>
  .next ((s.advance 4).setReg ra (immediate l h))

/-- `sub a, b, c` (R69). -/
def execSub (a b c : Byte) (s : State) : Result :=
  handler 4 s <|
  checkReg a s fun ra =>
  checkReg b s fun rb =>
  checkReg c s fun rc =>
  .next ((s.advance 4).setReg ra (subWrap (s.view 4 rb) (s.view 4 rc)))

end Sys2Proof.Machine
end

