-- ==== Sys2Proof/Syntax.lean ====
section
/-! DEFINITION. The instructions of CORE: one constructor per row of spec/opcode_table.json (30_encoding.md R43, R46). -/

namespace Sys2Proof

/-- An instruction with its operand bytes as they stand in memory (R40, R43).
A register operand is the WHOLE byte (R44): a value of 16 or more decodes, and makes the instruction raise
InvalidRegisterAccess (R55); `WellFormed` says which instructions have none such. DEDUCED (log 15). -/
inductive Instr where
  /-- `move_if a, b, c`, opcode 1, format RRR (R67): destination `a`, source `b`, condition `c`. -/
  | moveIf (a b c : Byte)
  /-- `store a, b`, opcode 2, format RR (R72): address register `a`, value register `b`. -/
  | store (a b : Byte)
  /-- `load a, b`, opcode 3, format RR (R73): destination `a`, address register `b`. -/
  | load (a b : Byte)
  /-- `loadimm a, L, H`, opcode 4, format RI (R68): destination `a`, raw bytes `l` (low) and `h` (high). -/
  | loadimm (a l h : Byte)
  /-- `sub a, b, c`, opcode 5, format RRR (R69): destination `a`, minuend `b`, subtrahend `c`. -/
  | sub (a b c : Byte)
  /-- `out a`, opcode 6, format R (R75): the register whose low byte is written. -/
  | out (a : Byte)
  /-- `exit`, opcode 7, format N (R76). -/
  | exit
  /-- `out_number a`, opcode 8, format R (R77): the register printed in decimal. -/
  | outNumber (a : Byte)
  deriving DecidableEq, Repr

/-- The register-index operand bytes of an instruction, in the order of its format (R43, R44, R55);
`L` and `H` of `loadimm` are none. -/
def Instr.regOperands : Instr → List Byte
  | .moveIf a b c => [a, b, c]
  | .store a b => [a, b]
  | .load a b => [a, b]
  | .loadimm a _ _ => [a]
  | .sub a b c => [a, b, c]
  | .out a => [a]
  | .exit => []
  | .outNumber a => [a]

end Sys2Proof
end

