-- ==== Sys2Proof/Machine/Dispatch.lean ====
section
/-! DEFINITION. The dispatcher: one arm per opcode (40_sequencer.md R53; 30_encoding.md R46). -/

namespace Sys2Proof.Machine

def exec (i : Instr) (s : State) : Host.Outcome State Fault Refusal :=
  match i with
  | .moveIf a b c => Sys2Proof.Machine.execMoveIf a b c s
  | .store a b => Sys2Proof.Machine.execStore a b s
  | .load a b => Sys2Proof.Machine.execLoad a b s
  | .loadimm a l h => Sys2Proof.Machine.execLoadimm a l h s
  | .sub a b c => Sys2Proof.Machine.execSub a b c s
  | .out a => Sys2Proof.Machine.execOut a s
  | .exit => Sys2Proof.Machine.execExit s
  | .outNumber a => Sys2Proof.Machine.execOutNumber a s

end Sys2Proof.Machine
end

