-- ==== Sys2Proof/WellFormed.lean ====
section
/-! DEFINITION. Which instructions name only registers that exist (30_encoding.md R44, 40_sequencer.md R55). -/

namespace Sys2Proof

/-- The operand byte names a register (R44: "It names register `x[a]` when `a < 16`"). -/
def namesReg (r : Byte) : Bool := decide (r.toNat < Config.nregs)

/-- Every register-index operand is below 16 (R55). `L` and `H` of `loadimm` are never checked (R44). -/
def Instr.wellFormed (i : Instr) : Bool := i.regOperands.all namesReg

end Sys2Proof
end

