-- ==== Sys2Proof/Decode.lean ====
section
/-! DEFINITION. Decoding and encoding, from the tables of 30_encoding.md (R40 to R47). -/

namespace Sys2Proof

/-- The eight opcodes of the map of R46. -/
inductive Opcode where
  | moveIf | store | load | loadimm | sub | out | exit | outNumber
  deriving DecidableEq, Repr

/-- The opcode byte, R46's column `I[7:0]`. -/
def Opcode.byte : Opcode → Byte
  | .moveIf => 0x01
  | .store => 0x02
  | .load => 0x03
  | .loadimm => 0x04
  | .sub => 0x05
  | .out => 0x06
  | .exit => 0x07
  | .outNumber => 0x08

/-- The width `w` in bytes, opcode byte included (R41). -/
def Opcode.width : Opcode → Nat
  | .moveIf => 4
  | .store => 3
  | .load => 3
  | .loadimm => 4
  | .sub => 4
  | .out => 2
  | .exit => 1
  | .outNumber => 2

/-- The opcode a first byte selects, by the whole byte (R46: mask 0xFF); 0x00 and 0x09 to 0xFF select none (R47). -/
def Opcode.ofByte (b : Byte) : Option Opcode :=
  match b.toNat with
  | 1 => some .moveIf
  | 2 => some .store
  | 3 => some .load
  | 4 => some .loadimm
  | 5 => some .sub
  | 6 => some .out
  | 7 => some .exit
  | 8 => some .outNumber
  | _ => none

/-- The instruction of an opcode whose operand byte at offset `k` is `o k` (R43: offsets 1, 2 and 3 from `ip`). -/
def Opcode.build (op : Opcode) (o : Nat → Byte) : Instr :=
  match op with
  | .moveIf => .moveIf (o 1) (o 2) (o 3)
  | .store => .store (o 1) (o 2)
  | .load => .load (o 1) (o 2)
  | .loadimm => .loadimm (o 1) (o 2) (o 3)
  | .sub => .sub (o 1) (o 2) (o 3)
  | .out => .out (o 1)
  | .exit => .exit
  | .outNumber => .outNumber (o 1)

/-- The opcode of an instruction (R46). -/
def Instr.opcode : Instr → Opcode
  | .moveIf _ _ _ => .moveIf
  | .store _ _ => .store
  | .load _ _ => .load
  | .loadimm _ _ _ => .loadimm
  | .sub _ _ _ => .sub
  | .out _ => .out
  | .exit => .exit
  | .outNumber _ => .outNumber

/-- The width of an instruction is its opcode's (R41: "fixed by its opcode alone"). -/
def Instr.width (i : Instr) : Nat := i.opcode.width

/-- Why a byte sequence does not begin with an instruction. -/
inductive DecodeError where
  /-- There is no byte at all, so no opcode. -/
  | noOpcode
  /-- The first byte is 0x00 or 0x09 to 0xFF (R47). -/
  | illegalOpcode (op : Byte)
  /-- The opcode is legal and the sequence is shorter than its width (R54). -/
  | truncated (op : Opcode)
  deriving DecidableEq, Repr

/-- Reads one instruction from the front of a byte sequence and gives the bytes after it (R40, R41).
Register bytes are not looked at here: their check comes after the span check (R55, R83). -/
def decode : List Byte → Except DecodeError (Instr × List Byte)
  | [] => .error .noOpcode
  | b :: rest =>
    match Opcode.ofByte b with
    | none => .error (.illegalOpcode b)
    | some op =>
      if rest.length + 1 < op.width then .error (.truncated op)
      else .ok (op.build fun k => rest.getD (k - 1) 0, rest.drop (op.width - 1))

/-- The operand byte that names a register (R44; R48: a register operand "encodes as its number"). -/
def regByte (r : Reg) : Byte := BitVec.ofNat 8 r.val

/-- The operand bytes of an instruction, in address order (R43). -/
def Instr.operandBytes : Instr → List Byte
  | .moveIf a b c => [a, b, c]
  | .store a b => [a, b]
  | .load a b => [a, b]
  | .loadimm a l h => [a, l, h]
  | .sub a b c => [a, b, c]
  | .out a => [a]
  | .exit => []
  | .outNumber a => [a]

/-- The bytes of an instruction, lowest address first: "the opcode byte followed by its operand bytes" (R40, R48). -/
def encode (i : Instr) : List Byte := i.opcode.byte :: i.operandBytes

/-- The instruction value `I` of R42: the bytes read as one little-endian number. -/
def instructionValue : List Byte → Nat
  | [] => 0
  | b :: rest => b.toNat + 256 * instructionValue rest

/-- The first `n` bytes of a number, least significant first (R42 the other way round). -/
def littleEndianBytes : Nat → Nat → List Byte
  | 0, _ => []
  | n + 1, v => BitVec.ofNat 8 v :: littleEndianBytes n (v / 256)

/-- The longest instruction, in bytes (R41). -/
abbrev longestWidth : Nat := 4

/-- The bytes of memory that hold an instruction of `nbits` bits whose value is `w` (R42); the bits above `nbits` are 0. -/
def tableWordBytes (nbits w : Nat) : List Byte := littleEndianBytes longestWidth (w % 2 ^ nbits)

/-- What the decoder reads from an instruction whose bits are `w`, numbered as spec/opcode_table.json numbers them (R42). -/
def decodeTableWord (nbits w : Nat) : Option Instr :=
  match decode (tableWordBytes nbits w) with
  | .ok (i, _) => some i
  | .error _ => none

end Sys2Proof
end

