-- ==== Sys2Proof/Machine/Fetch.lean ====
section
/-! DEFINITION. Fetch and decode of one step (40_sequencer.md R51 to R54), and placing an instruction where the next step
fetches it. -/

namespace Sys2Proof.Machine

/-- The instruction at the IP, or the error that ends the step before any handler (R51), in this order:
the fetch check (R52), the dispatch (R53), the span check (R54). Operand byte `k` is `mem[ip + k]` (R27). -/
def State.fetch (s : State) : Except ErrorKind Instr :=
  let ip := s.ip.toNat
  if ip < Config.memSize then
    match Opcode.ofByte (s.mem.read ip) with
    | none => .error .invalidInstruction
    | some op =>
      if ip + op.width ≤ Config.memSize then .ok (op.build fun k => s.mem.read (ip + k))
      else .error .invalidMemoryAccess
  else .error .invalidMemoryAccess

/-- The bytes of a list placed at rising addresses from `a`, as far as memory reaches (log 23). -/
def Memory.placeBytes (m : Memory) (a : Nat) (bytes : List Byte) : Memory :=
  m.writeBytes a (bytes.take (Config.memSize - a))

/-- The state with an instruction of `nbits` bits and value `w` standing at the IP (R42; log 14). -/
def State.placeAtIp (s : State) (nbits w : Nat) : State :=
  s.setMem (s.mem.placeBytes s.ip.toNat (tableWordBytes nbits w))

end Sys2Proof.Machine
end

