-- ==== Sys2Proof/Machine/Step.lean ====
section
/-! DEFINITION. STEP: exactly one instruction (40_sequencer.md R51). -/

namespace Sys2Proof.Machine

/-- One step: refused outside Running (R61); an error of fetch, dispatch or span ends it (R52 to R54); else the instruction's
handler runs (R51). -/
def step (s : State) : Host.Outcome State Fault Refusal :=
  whenRunning s <|
  match s.fetch with
  | .ok i => exec i s
  | .error kind => s.raise kind

/-- The state with an instruction standing where `step` fetches next; for the host's own questions (log 14, log 23). -/
def State.withFetchWord (s : State) (nbits w : Nat) : State := s.placeAtIp nbits w

end Sys2Proof.Machine
end

