-- ==== Sys2Proof/Machine/Assembler.lean ====
section
/-! DEFINITION. The assembly syntax of 30_encoding.md R48 (the spec's own notation, D12), from text to bytes. It is no part of the
machine, which is defined on bytes. What R48 leaves open of the text is the model's choice: spaces and empty lines (log 21), the
written form of a value (log 24), and which texts are labels (log 25). -/

namespace Sys2Proof.Machine

/-- One item of an assembly text. A register operand is a `Reg`: "the syntax cannot write a register byte of 16 or more". -/
inductive AsmItem where
  | moveIf (a b c : Reg)
  | store (a b : Reg)
  | load (a b : Reg)
  /-- `loadimm rA, L, H`: two byte literals. -/
  | loadimm (a : Reg) (l h : Byte)
  /-- `loadimm rA, #v`: the 16-bit form. -/
  | loadimmValue (a : Reg) (v : Int)
  | sub (a b c : Reg)
  | out (a : Reg)
  | exit
  | outNumber (a : Reg)
  /-- `name:`, whose value is the address of the next byte. -/
  | label (name : List Char)
  /-- `.byte v, ...`. -/
  | bytes (values : List Byte)
  deriving DecidableEq, Repr

/-- The instruction `loadimm rA, #v`, for `v` in -32768 to 65535 (R48). -/
def loadimmOfValue (a : Reg) (v : Int) : Option Instr :=
  if -32768 ≤ v ∧ v ≤ 65535 then
    some (.loadimm (regByte a) (BitVec.ofInt 8 (v % 256)) (BitVec.ofInt 8 (v / 256 % 256)))
  else none

/-- The bytes of one item (R48: "the opcode byte followed by its operand bytes in the order written"). -/
def AsmItem.assemble : AsmItem → Option (List Byte)
  | .moveIf a b c => some (encode (.moveIf (regByte a) (regByte b) (regByte c)))
  | .store a b => some (encode (.store (regByte a) (regByte b)))
  | .load a b => some (encode (.load (regByte a) (regByte b)))
  | .loadimm a l h => some (encode (.loadimm (regByte a) l h))
  | .loadimmValue a v => (loadimmOfValue a v).map encode
  | .sub a b c => some (encode (.sub (regByte a) (regByte b) (regByte c)))
  | .out a => some (encode (.out (regByte a)))
  | .exit => some (encode .exit)
  | .outNumber a => some (encode (.outNumber (regByte a)))
  | .label _ => some []
  | .bytes values => some values

/-- The image of a list of items, the first at address 0 (R95). -/
def assembleItems : List AsmItem → Option (List Byte)
  | [] => some []
  | item :: rest => do return (← item.assemble) ++ (← assembleItems rest)

/-- The labels of a list of items and their values, the first item standing at address `a` (R48), in the order of the text.
DESIGN CHOICE (log 25): a name may repeat, and then stands here once for each place. -/
def asmLabels : Nat → List AsmItem → List (List Char × Nat)
  | _, [] => []
  | a, .label name :: rest => (name, a) :: asmLabels a rest
  | a, item :: rest => asmLabels (a + (item.assemble.getD []).length) rest

/-! ### Reading the text -/

/-- A text cut at its separators, none of them inside a character literal. -/
def splitUnquoted (sep : Char → Bool) : List Char → List (List Char)
  | [] => [[]]
  | '\'' :: c :: '\'' :: rest =>
    match splitUnquoted sep rest with
    | [] => [['\'', c, '\'']]
    | piece :: pieces => ('\'' :: c :: '\'' :: piece) :: pieces
  | c :: rest =>
    if sep c then [] :: splitUnquoted sep rest
    else
      match splitUnquoted sep rest with
      | [] => [[c]]
      | piece :: pieces => (c :: piece) :: pieces

/-- A piece without the blanks around it. -/
def trimBlanks (cs : List Char) : List Char :=
  ((cs.dropWhile (· == ' ')).reverse.dropWhile (· == ' ')).reverse

/-- The value of a digit in a base of at most 16. -/
def digitValue (base : Nat) (c : Char) : Option Nat :=
  let d := if '0' ≤ c ∧ c ≤ '9' then c.toNat - 48
    else if 'a' ≤ c ∧ c ≤ 'f' then c.toNat - 87
    else if 'A' ≤ c ∧ c ≤ 'F' then c.toNat - 55
    else 16
  if d < base then some d else none

/-- The value of a non-empty string of digits. -/
def numberIn (base : Nat) : List Char → Option Nat
  | [] => none
  | cs => cs.foldl (fun acc c => do return (← acc) * base + (← digitValue base c)) (some 0)

/-- A number, decimal or `0x` hexadecimal (R48). DESIGN CHOICE (log 24): leading zeros, and both cases of a hexadecimal digit. -/
def readNumber : List Char → Option Nat
  | '0' :: 'x' :: cs => numberIn 16 cs
  | cs => numberIn 10 cs

/-- A byte literal: a number 0 to 255, or a character literal standing for the character's ASCII code (R48).
DESIGN CHOICE (log 24): any one ASCII character between the quotes, with no escapes. -/
def readByte : List Char → Option Byte
  | ['\'', c, '\''] => if c.toNat < 128 then some (BitVec.ofNat 8 c.toNat) else none
  | cs => do
    let n ← readNumber cs
    if n < 256 then return BitVec.ofNat 8 n else none

/-- A register operand, `r0` to `r15` (R48), so with no leading zero. -/
def readReg : List Char → Option Reg
  | 'r' :: '0' :: _ :: _ => none
  | 'r' :: cs => do
    let n ← numberIn 10 cs
    if h : n < Config.nregs then return ⟨n, h⟩ else none
  | _ => none

/-- The value of the form `#v` (R48 gives its range only). DESIGN CHOICE (log 24): a number, decimal or `0x` hexadecimal, after an
optional minus sign. -/
def readInt : List Char → Option Int
  | '-' :: cs => do return -((← readNumber cs : Nat) : Int)
  | cs => do return ((← readNumber cs : Nat) : Int)

/-- One instruction or `.byte` line from its mnemonic and its operands (R48).
DESIGN CHOICE (log 24): `.byte` takes one or more byte literals, and no space stands between `#` and its value. -/
def readItem (mnemonic : List Char) (operands : List (List Char)) : Option AsmItem :=
  if mnemonic = "move_if".toList then
    match operands with
    | [a, b, c] => do return .moveIf (← readReg a) (← readReg b) (← readReg c)
    | _ => none
  else if mnemonic = "store".toList then
    match operands with
    | [a, b] => do return .store (← readReg a) (← readReg b)
    | _ => none
  else if mnemonic = "load".toList then
    match operands with
    | [a, b] => do return .load (← readReg a) (← readReg b)
    | _ => none
  else if mnemonic = "loadimm".toList then
    match operands with
    | [a, '#' :: v] => do return .loadimmValue (← readReg a) (← readInt v)
    | [a, l, h] => do return .loadimm (← readReg a) (← readByte l) (← readByte h)
    | _ => none
  else if mnemonic = "sub".toList then
    match operands with
    | [a, b, c] => do return .sub (← readReg a) (← readReg b) (← readReg c)
    | _ => none
  else if mnemonic = "out".toList then
    match operands with
    | [a] => do return .out (← readReg a)
    | _ => none
  else if mnemonic = "exit".toList then
    match operands with
    | [] => some .exit
    | _ => none
  else if mnemonic = "out_number".toList then
    match operands with
    | [a] => do return .outNumber (← readReg a)
    | _ => none
  else if mnemonic = ".byte".toList then
    if operands = [] then none else (operands.mapM readByte).map .bytes
  else none

/-- The items of one line: labels `name:`, then an optional instruction (R48).
DESIGN CHOICE (log 25): any text before a `:` is a name, an empty one and one with inner spaces too, and a line may have several. -/
def readLine (line : List Char) : Option (List AsmItem) :=
  let named := splitUnquoted (· == ':') line
  let body := trimBlanks (named.getLastD [])
  let labels := named.dropLast.map fun name => AsmItem.label (trimBlanks name)
  let mnemonic := body.takeWhile (· != ' ')
  let operandText := trimBlanks (body.dropWhile (· != ' '))
  let operands := if operandText = [] then [] else (splitUnquoted (· == ',') operandText).map trimBlanks
  if body = [] then some labels else do return labels ++ [← readItem mnemonic operands]

/-- The items of a text, its lines ended by newlines or by `;` (R48). -/
def readAssembly (text : List Char) : Option (List AsmItem) :=
  ((splitUnquoted (fun c => c == '\n' || c == ';') text).mapM readLine).map List.flatten

/-- The image of an assembly text. -/
def assembleText (text : String) : Option (List Byte) := (readAssembly text.toList).bind assembleItems

end Sys2Proof.Machine
end

