-- ==== Sys2Proof/Machine/HostOps.lean ====
section
/-! DEFINITION. The host's transactions (40_sequencer.md R50, R58 to R66; 70_reset_and_hazards.md R93) and the numeric codes of a
status output (10_state.md R17, 60_exceptions.md R79). All of them happen between steps (R64; log 22). -/

namespace Sys2Proof.Machine

/-- Why CONSTRUCT makes no machine. -/
inductive ConstructRefusal where
  /-- The image has more than `MEM_SIZE` bytes (R93; D8, log 12): "no machine exists; nothing is truncated". -/
  | imageTooLong
  deriving DecidableEq, Repr

/-- CONSTRUCT(image), CORE's reset (R93, R22). -/
def construct (image : List Byte) : Except ConstructRefusal State :=
  if image.length ≤ Config.memSize then .ok { State.reset with mem := State.reset.mem.writeBytes 0 image }
  else .error .imageTooLong

/-- The result of a step as the host sees it (R58). -/
inductive StepResult where
  | continue
  | halted
  | error (kind : ErrorKind)
  deriving DecidableEq, Repr

/-- The result of the step that led to a state is told by its run state (R58, R17). -/
def State.stepResult (s : State) : StepResult :=
  match s.run with
  | .running => .continue
  | .halted => .halted
  | .errored kind => .error kind

/-- STEP with a sink (R50): the sink given to this step answers its request. The default sink is a sink like any other (R65). -/
def stepWith (k : Sink) (s : State) : Result := step { s with sink := k }

/-- RUN (R59), observed for at most `n` steps: steps repeat with the same sink until one returns Halted or an error.
A run that ends within `n` steps has ended for good; one still in Running has not ended yet (U9; log 20). -/
def runFor : Nat → State → Result
  | 0, s => .next s
  | n + 1, s =>
    match step s with
    | .next t =>
      match t.run with
      | .running => runFor n t
      | .halted => .next t
      | .errored _ => .next t
    | .fault f => .fault f
    | .refused r => .refused r

/-- RUN with a sink (R59): "repeats STEP with the same sink". -/
def runWith (k : Sink) (n : Nat) (s : State) : Result := runFor n { s with sink := k }

/-- REGS_VIEW: the 16 register values (R62). -/
def State.regsView (s : State) : Vector Word Config.nregs := s.regs

/-- MEM_VIEW: the 4096 memory bytes (R62). -/
def State.memView (s : State) : List Byte := s.mem.readBytes 0 Config.memSize

/-- SET_REG(i, v) (R63; D14, log 22): InvalidRegisterAccess when `i >= 16`, and no state changes; else the register is written.
The run state never changes. -/
def hostSetReg (i : Nat) (v : Word) (s : State) : Except ErrorKind State :=
  if h : i < Config.nregs then .ok (s.setReg ⟨i, h⟩ v) else .error .invalidRegisterAccess

/-- The error kind's code on a status output (R79; D10, log 17). -/
def ErrorKind.code : ErrorKind → Nat
  | .invalidMemoryAccess => 1
  | .invalidRegisterAccess => 2
  | .invalidInstruction => 3
  | .ioFailure _ => 4

/-- The run state's code on a status output (R17; D10, log 17). -/
def RunState.code : RunState → Nat
  | .running => 0
  | .halted => 1
  | .errored _ => 2

/-- The error code on a status output: 0 is no error (D10, log 17). -/
def RunState.errorCode : RunState → Nat
  | .running => 0
  | .halted => 0
  | .errored kind => kind.code

end Sys2Proof.Machine
end

