-- ==== Sys2Proof/Safety.lean ====
section
/-! DEFINITION. The terms claims about CORE are stated in: when an instruction can execute, what a step keeps, the invariant,
and what counts as a safe run. -/

namespace Sys2Proof.Machine

/-! ### When an instruction executes -/

/-- The machine is Running and the `w` bytes at the IP lie within memory (R54, R61). -/
abbrev CanExecute (w : Nat) (s : State) : Prop := s.run = .running ∧ s.ip.toNat + w ≤ Config.memSize

/-- The bytes from the IP to the end of memory: what a step can fetch (R23, R27). -/
def State.bytesAtIp (s : State) : List Byte := s.mem.readBytes s.ip.toNat (Config.memSize - s.ip.toNat)

/-- The register an operand byte names, if it names one (R44). -/
def regOf (r : Byte) : Option Reg := if h : r.toNat < Config.nregs then some ⟨r.toNat, h⟩ else none

/-- The register an instruction may write besides advancing the IP (R14); `move_if` only when its condition holds. -/
def destination : Instr → Option Reg
  | .moveIf a _ _ => regOf a
  | .store _ _ => none
  | .load a _ => regOf a
  | .loadimm a _ _ => regOf a
  | .sub a _ _ => regOf a
  | .out _ => none
  | .exit => none
  | .outNumber _ => none

/-- The address `store` writes 4 bytes to (R72); no other instruction writes memory (R14). -/
def storeAddress (s : State) : Instr → Option Nat
  | .moveIf _ _ _ => none
  | .store a _ => (regOf a).map fun r => (s.view 3 r).toNat
  | .load _ _ => none
  | .loadimm _ _ _ => none
  | .sub _ _ _ => none
  | .out _ => none
  | .exit => none
  | .outNumber _ => none

/-- The address `load` reads 4 bytes from (R73). -/
def loadAddress (s : State) : Instr → Option Nat
  | .moveIf _ _ _ => none
  | .store _ _ => none
  | .load _ b => (regOf b).map fun r => (s.view 3 r).toNat
  | .loadimm _ _ _ => none
  | .sub _ _ _ => none
  | .out _ => none
  | .exit => none
  | .outNumber _ => none

/-- The instructions that write to the sink: `out` and `out_number` (R23, R74). -/
def usesSink : Instr → Bool
  | .moveIf _ _ _ => false
  | .store _ _ => false
  | .load _ _ => false
  | .loadimm _ _ _ => false
  | .sub _ _ _ => false
  | .out _ => true
  | .exit => false
  | .outNumber _ => true

/-! ### What a step keeps -/

/-- Every register but the listed ones keeps its value. -/
abbrev RegsKept (except : List Reg) (s t : State) : Prop := ∀ i : Reg, i ∉ except → t.reg i = s.reg i

/-- Every byte of memory keeps its value. -/
abbrev MemoryKept (s t : State) : Prop := ∀ a : Nat, t.mem.read a = s.mem.read a

/-- Nothing was offered to the sink. -/
abbrev SinkKept (s t : State) : Prop := t.accepted = s.accepted ∧ t.sink = s.sink ∧ t.draws = s.draws

/-- `t` is `s` after a SINK_WRITE of `bytes` by an instruction of width `w` that the sink answered ok (R74). -/
abbrev Emitted (w : Nat) (bytes : List Byte) (s t : State) : Prop :=
  t.run = .running ∧ t.accepted = s.accepted ++ bytes ∧ t.sink = s.sink.afterAnswer ∧ t.draws = s.draws ∧
  t.ip.toNat = s.ip.toNat + w ∧ RegsKept [0] s t ∧ MemoryKept s t

/-- `t` is `s` after a SINK_WRITE of `bytes` by an instruction of width `w` that the sink failed with its own error `e`,
having accepted the first `n` bytes: `x[0]` is `ip` or `ip + w`, and nothing says which (R74, D6). -/
abbrev IoFailed (w : Nat) (bytes : List Byte) (n : Nat) (e : SinkError) (s t : State) : Prop :=
  t.run = .errored (.ioFailure e) ∧ t.accepted = s.accepted ++ bytes.take n ∧ t.sink = s.sink.afterAnswer ∧
  (t.ip.toNat = s.ip.toNat ∨ t.ip.toNat = s.ip.toNat + w) ∧ RegsKept [0] s t ∧ MemoryKept s t

/-! ### The invariant -/

/-- Memory is in its canonical form and lists no address outside `0` to `MEM_SIZE - 1` (R16, R24). -/
abbrev MemoryInv (s : State) : Prop := s.mem.wf

/-! ### Reading the output back -/

/-- The number a string of ASCII digits stands for. -/
def digitsValue (ds : List Byte) : Nat := ds.foldl (fun acc d => acc * 10 + (d.toNat - 0x30)) 0

/-- `ds` is the decimal numeral of `m`: ASCII digits, the first not `0`, standing for `m` (R78). -/
abbrev IsNumeral (ds : List Byte) (m : Nat) : Prop :=
  ds ≠ [] ∧ ds.head? ≠ some 0x30 ∧ (∀ d ∈ ds, 0x30 ≤ d.toNat ∧ d.toNat ≤ 0x39) ∧ digitsValue ds = m

/-! ### Outcomes and safe runs -/

/-- A change of the next state, the other outcomes kept. -/
def mapNext (f : State → State) : Result → Result
  | .next t => .next (f t)
  | .fault x => .fault x
  | .refused x => .refused x

/-- The state in which the sink had accepted `before` ahead of everything else. -/
def State.acceptedAfter (before : List Byte) (s : State) : State := { s with accepted := before ++ s.accepted }

/-- A run of at most `n` steps is safe when it neither stops inside a step nor ends in an error (R60). -/
def SafeFor (n : Nat) (s : State) : Prop :=
  ∃ t, runFor n s = .next t ∧ (t.run = .running ∨ t.run = .halted)

end Sys2Proof.Machine
end

