-- ==== Sys2Proof/Certificates/Slice0/Obligations.lean ====
section
/-! DEFINITION. The statements about CORE for the provers. Each docstring names the rule or the section it formalises. -/

open Sys2Proof Sys2Proof.Machine

/-! ### Encoding (30_encoding.md) -/

/-- One word of every opcode, written out from the formats of R43 and the map of R46, decodes to its instruction. -/
def Obligations.SpecWordsDecode : Prop :=
  decode [0x01, 0x01, 0x02, 0x03] = .ok (.moveIf 1 2 3, []) ∧
  decode [0x02, 0x01, 0x02] = .ok (.store 1 2, []) ∧
  decode [0x03, 0x03, 0x02] = .ok (.load 3 2, []) ∧
  decode [0x04, 0x01, 0x34, 0x12] = .ok (.loadimm 1 0x34 0x12, []) ∧
  decode [0x05, 0x03, 0x01, 0x02] = .ok (.sub 3 1 2, []) ∧
  decode [0x06, 0x01] = .ok (.out 1, []) ∧
  decode [0x07] = .ok (.exit, []) ∧
  decode [0x08, 0x03] = .ok (.outNumber 3, [])

/-- Decoding answers an instruction and the bytes left over exactly when the bytes are that instruction's encoding followed by
them, for every operand byte 0 to 255 (30_encoding.md sections 1 to 3). -/
def Obligations.DecodeAndEncodeAgree : Prop :=
  ∀ (l rest : List Byte) (i : Instr), decode l = .ok (i, rest) ↔ l = encode i ++ rest

/-- The instruction value of an encoding, numbered as R42 numbers the bits, decodes to the instruction, and its byte `k` is
byte `k` of the encoding. -/
def Obligations.TableWordsDecodeToTheirInstruction : Prop :=
  ∀ i : Instr,
    decodeTableWord (8 * i.width) (instructionValue (encode i)) = some i ∧
    ∀ k b, (encode i)[k]? = some b → b.toNat = instructionValue (encode i) / 256 ^ k % 256

/-- R47: the illegal opcode bytes are exactly 0x00 and 0x09 to 0xFF, fetching one raises InvalidInstruction and leaves the state
unchanged, and within a valid opcode a register byte of 16 or more raises InvalidRegisterAccess. -/
def Obligations.IllegalEncodingsRaise : Prop :=
  (∀ (b : Byte) (rest : List Byte),
    decode (b :: rest) = .error (.illegalOpcode b) ↔ b = 0x00 ∨ 0x09 ≤ b.toNat) ∧
  (∀ s : State, s.run = .running → s.ip.toNat < 4096 →
    (s.mem.read s.ip.toNat = 0x00 ∨ 0x09 ≤ (s.mem.read s.ip.toNat).toNat) →
    step s = .next (s.setRun (.errored .invalidInstruction))) ∧
  (∀ (s : State) (i : Instr) (rest : List Byte), s.run = .running → decode s.bytesAtIp = .ok (i, rest) →
    (∃ r ∈ i.regOperands, 16 ≤ r.toNat) → step s = .next (s.setRun (.errored .invalidRegisterAccess)))

/-- R45: the immediate is `imm16` when `H < 0x80` and `imm16 + 0xFFFF0000` when `H >= 0x80`, with `imm16 = (H << 8) | L`. -/
def Obligations.ImmediateIsTheSignExtendedPair : Prop :=
  ∀ l h : Byte,
    (h.toNat < 0x80 → (immediate l h).toNat = h.toNat * 256 + l.toNat) ∧
    (0x80 ≤ h.toNat → (immediate l h).toNat = h.toNat * 256 + l.toNat + 0xFFFF0000)

/-- The form `loadimm rA, #v` of R48 loads the 16-bit two's-complement form of `v`, sign-extended, and exists exactly for
`v` in -32768 to 65535. The spec marks the syntax as its own notation (D12). -/
def Obligations.LoadimmValueFormLoadsTheValue : Prop :=
  ∀ (a : Reg) (v : Int),
    (-32768 ≤ v → v ≤ 65535 → ∃ l h : Byte,
      loadimmOfValue a v = some (.loadimm (regByte a) l h) ∧ (immediate l h).toInt = v.bmod 65536) ∧
    (v < -32768 ∨ 65535 < v → loadimmOfValue a v = none)

/-! ### Construction and the host's operations (40_sequencer.md section 5, 70_reset_and_hazards.md) -/

/-- R22: after construction, CORE's reset, every register is 0, the image stands at the front of memory, every further byte is 0,
and the run state is Running. -/
def Obligations.ConstructGivesTheResetState : Prop :=
  ∀ image : List Byte, image.length ≤ 4096 →
    ∃ s, construct image = .ok s ∧ (∀ i : Reg, s.reg i = 0) ∧
      (∀ k b, image[k]? = some b → s.mem.read k = b) ∧
      (∀ k, image.length ≤ k → k < 4096 → s.mem.read k = 0) ∧ s.run = .running

/-- CONSTRUCT refuses exactly the images of more than 4096 bytes (R93; the spec's own decision D8, log 12); the longest image
that is not refused fills memory to its last byte. -/
def Obligations.OversizedImagesAreRefused : Prop :=
  (∀ image : List Byte, construct image = .error .imageTooLong ↔ 4096 < image.length) ∧
  (∀ (front : List Byte) (b : Byte), front.length = 4095 →
    ∃ s, construct (front ++ [b]) = .ok s ∧ s.mem.read 4095 = b)

/-- The model's choice (log 14, log 6, log 16, log 5): `State.reset` is the machine of the empty image, with a sink that accepts
everything and has accepted nothing. Its registers, memory and run state are those of R22, and its first step raises
InvalidInstruction, as R93 derives. -/
def Obligations.ResetIsTheMachineOfTheEmptyImage : Prop :=
  construct [] = .ok State.reset ∧ State.reset.ip = 0 ∧ (∀ i : Reg, State.reset.reg i = 0) ∧
  (∀ a, State.reset.mem.read a = 0) ∧ State.reset.run = .running ∧
  State.reset.accepted = [] ∧ State.reset.sink.answer = .ok ∧
  step State.reset = .next (State.reset.setRun (.errored .invalidInstruction))

/-- R63: SET_REG fails with InvalidRegisterAccess when `i >= 16`; otherwise it writes `x[i]` and nothing else; it never changes
the run state, so a write in Halted or Errored does not make the machine steppable (the spec's own decision D14, log 22). -/
def Obligations.SetRegWritesOneRegister : Prop :=
  ∀ (s : State) (i : Nat) (v : Word),
    (16 ≤ i → hostSetReg i v s = .error .invalidRegisterAccess) ∧
    (∀ r : Reg, i = r.val → ∃ t, hostSetReg i v s = .ok t ∧ t.reg r = v ∧ RegsKept [r] s t ∧ MemoryKept s t ∧
      SinkKept s t ∧ t.run = s.run ∧ (s.run ≠ .running → step t = .refused .stepOutsideRunning))

/-- R62: in every run state REGS_VIEW gives the 16 register values and MEM_VIEW the 4096 memory bytes. -/
def Obligations.ViewsShowTheState : Prop :=
  ∀ s : State, (∀ i : Reg, s.regsView[i] = s.reg i) ∧ s.memView.length = 4096 ∧
    ∀ a, a < 4096 → s.memView[a]? = some (s.mem.read a)

/-- The numeric codes of R17 and R79, the spec's own decision D10. -/
def Obligations.StatusCodesAreThoseOfTheTable : Prop :=
  RunState.running.code = 0 ∧ RunState.halted.code = 1 ∧ (∀ k, (RunState.errored k).code = 2) ∧
  ErrorKind.invalidMemoryAccess.code = 1 ∧ ErrorKind.invalidRegisterAccess.code = 2 ∧
  ErrorKind.invalidInstruction.code = 3 ∧ (∀ e, (ErrorKind.ioFailure e).code = 4) ∧
  (∀ r : RunState, r.errorCode = 0 ↔ ∀ k, r ≠ .errored k)

/-! ### The invariant -/

/-- The reset state meets the invariant: memory lists nothing. -/
def Obligations.ResetMeetsTheMemoryInvariant : Prop := MemoryInv State.reset

/-- CONSTRUCT makes machines that meet the invariant, and SET_REG keeps it. -/
def Obligations.HostOperationsKeepTheMemoryInvariant : Prop :=
  (∀ (image : List Byte) (s : State), construct image = .ok s → MemoryInv s) ∧
  (∀ (s t : State) (i : Nat) (v : Word), MemoryInv s → hostSetReg i v s = .ok t → MemoryInv t)

/-- Every step keeps memory in its canonical form, with no byte outside `0` to `MEM_SIZE - 1`, from every state, reachable
or not. -/
def Obligations.EveryStepKeepsTheMemoryInvariant : Prop :=
  ∀ s t : State, MemoryInv s → step s = .next t → MemoryInv t

/-- In canonical form, memories that give every address the same byte are the same data. -/
def Obligations.EqualBytesMakeEqualMemories : Prop :=
  ∀ m n : Memory, m.wf → n.wf → (∀ a, a < 4096 → m.read a = n.read a) → m = n

/-! ### The step (40_sequencer.md, 60_exceptions.md) -/

/-- When the bytes at the IP decode to an instruction, a step in Running is `exec` of that instruction in that state: `exec`
itself advances the IP, and step adds nothing (R51). -/
def Obligations.StepRunsTheDecodedInstruction : Prop :=
  ∀ (s : State) (i : Instr) (rest : List Byte),
    s.run = .running → decode s.bytesAtIp = .ok (i, rest) → step s = exec i s

/-- R52: a step whose `x[0]`, read as unsigned, is 4096 or more raises InvalidMemoryAccess and changes nothing. -/
def Obligations.FetchBeyondMemoryRaises : Prop :=
  ∀ s : State, s.run = .running → 4096 ≤ (s.reg 0).toNat →
    step s = .next (s.setRun (.errored .invalidMemoryAccess))

/-- R53: the opcode byte selects the handler; 0 and 9 to 255 raise InvalidInstruction and change nothing, wherever in memory the
opcode stands, so before any span check. -/
def Obligations.DispatchFollowsTheOpcodeMap : Prop :=
  ∀ (s : State) (ip : Nat) (o : Nat → Byte), s.run = .running → s.ip.toNat = ip → ip < 4096 →
    (∀ k, o k = s.mem.read (ip + k)) →
    (o 0 = 1 → ip + 4 ≤ 4096 → step s = exec (.moveIf (o 1) (o 2) (o 3)) s) ∧
    (o 0 = 2 → ip + 3 ≤ 4096 → step s = exec (.store (o 1) (o 2)) s) ∧
    (o 0 = 3 → ip + 3 ≤ 4096 → step s = exec (.load (o 1) (o 2)) s) ∧
    (o 0 = 4 → ip + 4 ≤ 4096 → step s = exec (.loadimm (o 1) (o 2) (o 3)) s) ∧
    (o 0 = 5 → ip + 4 ≤ 4096 → step s = exec (.sub (o 1) (o 2) (o 3)) s) ∧
    (o 0 = 6 → ip + 2 ≤ 4096 → step s = exec (.out (o 1)) s) ∧
    (o 0 = 7 → step s = exec .exit s) ∧
    (o 0 = 8 → ip + 2 ≤ 4096 → step s = exec (.outNumber (o 1)) s) ∧
    ((o 0 = 0 ∨ 9 ≤ (o 0).toNat) → step s = .next (s.setRun (.errored .invalidInstruction)))

/-- R54: when `ip + w > MEM_SIZE`, `w` the width of the dispatched opcode, the step raises InvalidMemoryAccess and changes
nothing; when `ip + w <= MEM_SIZE` the check passes and the opcode's handler runs on the bytes after the opcode (the spec's own
decision D16, log 19). -/
def Obligations.SpanCheckIsExact : Prop :=
  ∀ (s : State) (op : Opcode), s.run = .running → s.ip.toNat < 4096 → s.mem.read s.ip.toNat = op.byte →
    (4096 < s.ip.toNat + op.width → step s = .next (s.setRun (.errored .invalidMemoryAccess))) ∧
    (s.ip.toNat + op.width ≤ 4096 → step s = exec (op.build fun k => s.mem.read (s.ip.toNat + k)) s)

/-- R55: after the span check, any register-index operand of 16 or more raises InvalidRegisterAccess and changes nothing,
whatever its role and whatever the condition of `move_if`; with none such, no InvalidRegisterAccess is raised; `L` and `H` are
not checked. -/
def Obligations.EveryRegisterOperandIsChecked : Prop :=
  (∀ (i : Instr) (s : State), CanExecute i.width s →
    ((∃ r ∈ i.regOperands, 16 ≤ r.toNat) → exec i s = .next (s.setRun (.errored .invalidRegisterAccess))) ∧
    ((∀ r ∈ i.regOperands, r.toNat < 16) →
      ∀ t, exec i s = .next t → t.run ≠ .errored .invalidRegisterAccess)) ∧
  (∀ a b c : Byte,
    (Instr.moveIf a b c).regOperands = [a, b, c] ∧ (Instr.store a b).regOperands = [a, b] ∧
    (Instr.load a b).regOperands = [a, b] ∧ (Instr.loadimm a b c).regOperands = [a] ∧
    (Instr.sub a b c).regOperands = [a, b, c] ∧ (Instr.out a).regOperands = [a] ∧
    Instr.exit.regOperands = [] ∧ (Instr.outNumber a).regOperands = [a])

/-- R83: a step in Running reports the first of the six errors that applies, in the rule's order; with none of them, and a sink
that answers ok if it is asked, it ends in Continue or Halted. The spec derives the places of (5) and (6) (log 2); a data address
read from register 0 is the view of the spec's own decision D2 (log 1). -/
def Obligations.ErrorsAreReportedInOrder : Prop :=
  ∀ s : State, s.run = .running →
    (4096 ≤ s.ip.toNat → step s = .next (s.setRun (.errored .invalidMemoryAccess))) ∧
    (s.ip.toNat < 4096 → Opcode.ofByte (s.mem.read s.ip.toNat) = none →
      step s = .next (s.setRun (.errored .invalidInstruction))) ∧
    (∀ op, s.ip.toNat < 4096 → Opcode.ofByte (s.mem.read s.ip.toNat) = some op → 4096 < s.ip.toNat + op.width →
      step s = .next (s.setRun (.errored .invalidMemoryAccess))) ∧
    (∀ i rest, decode s.bytesAtIp = .ok (i, rest) →
      (i.wellFormed = false → step s = .next (s.setRun (.errored .invalidRegisterAccess))) ∧
      (i.wellFormed = true → ∀ a, storeAddress s i = some a ∨ loadAddress s i = some a → 4096 < a + 4 →
        step s = .next (s.setRun (.errored .invalidMemoryAccess))) ∧
      (i.wellFormed = true → usesSink i = true → ∀ n e, s.sink.answer = .fail n e →
        ∃ t, step s = .next t ∧ t.run = .errored (.ioFailure e)) ∧
      (i.wellFormed = true → (∀ a, storeAddress s i = some a ∨ loadAddress s i = some a → a + 4 ≤ 4096) →
        (usesSink i = true → s.sink.answer = .ok) →
        ∃ t, step s = .next t ∧ (t.run = .running ∨ t.run = .halted)))

/-- R81: a step that raises InvalidMemoryAccess, InvalidRegisterAccess or InvalidInstruction changes no register, no memory byte
and nothing at the sink, only the run state, and the step returns Error(kind) (the spec's own decision D3, log 2); after IoFailure
the state is as R74 says (D6, D7; log 5, log 7), the string being that of the `out` or `out_number` at the IP, whose view of
register 0 is D2 (log 1). -/
def Obligations.ErrorsChangeOnlyTheRunState : Prop :=
  ∀ (s t : State) (kind : ErrorKind), step s = .next t → t.run = .errored kind →
    t.stepResult = .error kind ∧
    ((∀ e, kind ≠ .ioFailure e) → t = s.setRun (.errored kind)) ∧
    (∀ e, kind = .ioFailure e → ∃ (a : Reg) (rest : List Byte) (n : Nat), s.sink.answer = .fail n e ∧
      ((decode s.bytesAtIp = .ok (.out (regByte a), rest) ∧
          IoFailed 2 (characterBytes Config.outByteEncoding ((s.view 2 a).extractLsb' 0 8)) n e s t) ∨
        (decode s.bytesAtIp = .ok (.outNumber (regByte a), rest) ∧
          IoFailed 2 (decimal (s.view 2 a).toInt) n e s t)))

/-- R61: in Halted and in Errored there is no step and no run; the request is refused (the spec's own decision D9, log 11). -/
def Obligations.NoStepOutsideRunning : Prop :=
  ∀ s : State, s.run ≠ .running →
    step s = .refused .stepOutsideRunning ∧ (∀ n, runFor (n + 1) s = .refused .stepOutsideRunning) ∧
    ∀ i, exec i s = .refused .stepOutsideRunning

/-- R58: a step returns Continue, Halted (only by `exit`) or Error(kind), and the run state after it is Running, Halted or
Errored(kind) accordingly. -/
def Obligations.StepResultsMatchRunStates : Prop :=
  ∀ s t : State, step s = .next t →
    (t.stepResult = .continue ↔ t.run = .running) ∧ (t.stepResult = .halted ↔ t.run = .halted) ∧
    (∀ k, t.stepResult = .error k ↔ t.run = .errored k) ∧
    (t.stepResult = .halted ↔ s.ip.toNat < 4096 ∧ s.mem.read s.ip.toNat = 0x07)

/-- A step in Running always ends in a next state, but for one case: `out` or `out_number` and a sink that never answers, which
leaves the step pending for ever (R74, 93_implementation_defined.md U8). That this is the fault `sinkNeverAnswers` is the model's
choice (log 8). -/
def Obligations.StepsEndUnlessTheSinkNeverAnswers : Prop :=
  ∀ s : State, s.run = .running →
    (∃ t, step s = .next t) ∨
    (step s = .fault .sinkNeverAnswers ∧ s.sink.answer = .never ∧
      ∃ i rest, decode s.bytesAtIp = .ok (i, rest) ∧ usesSink i = true ∧ i.wellFormed = true)

/-- The frame of every instruction (the table of R14): besides the IP only the destination register may change, only `store`
changes memory and only its 4 bytes, only `out` and `out_number` reach the sink, and the sink's bytes only grow at their end. -/
def Obligations.EveryInstructionKeepsItsFrame : Prop :=
  ∀ (i : Instr) (s t : State), exec i s = .next t →
    (∀ r : Reg, r ≠ 0 → destination i ≠ some r → t.reg r = s.reg r) ∧
    (storeAddress s i = none → MemoryKept s t) ∧
    (∀ a, storeAddress s i = some a → ∀ x, x < a ∨ a + 4 ≤ x → t.mem.read x = s.mem.read x) ∧
    (usesSink i = false → SinkKept s t) ∧
    (∃ more, t.accepted = s.accepted ++ more)

/-- A step that ends in Continue or Halted and whose instruction does not write register 0 leaves `x[0] = ip + w`, exactly and
at most `MEM_SIZE` (R15, R57). -/
def Obligations.IpAdvancesByTheWidth : Prop :=
  ∀ (s t : State) (i : Instr) (rest : List Byte), decode s.bytesAtIp = .ok (i, rest) → step s = .next t →
    (t.run = .running ∨ t.run = .halted) → destination i ≠ some 0 →
    (t.reg 0).toNat = (s.reg 0).toNat + i.width ∧ (t.reg 0).toNat ≤ 4096

/-- The view of a register operand (R56): register 0 reads as `ip + w`, every other register as itself; the view is what the
state holds once `x[0]` is advanced (R57). The spec's own decision D2 (log 1). -/
def Obligations.OperandViewIsTheAdvancedState : Prop :=
  ∀ (s : State) (w : Nat) (i : Reg), s.ip.toNat + w ≤ 4096 →
    (s.view w 0).toNat = s.ip.toNat + w ∧ (i ≠ 0 → s.view w i = s.reg i) ∧ s.view w i = (s.advance w).reg i

/-- Every well-formed instruction whose span fits, whose data address (if it has one) is in range and whose sink (if it uses it)
answers ok completes: it answers a next state in Running or Halted. -/
def Obligations.WellFormedInstructionsComplete : Prop :=
  ∀ (i : Instr) (s : State), CanExecute i.width s → i.wellFormed = true →
    (∀ a, storeAddress s i = some a ∨ loadAddress s i = some a → a + 4 ≤ 4096) →
    (usesSink i = true → s.sink.answer = .ok) →
    ∃ t, exec i s = .next t ∧ t.run = (if i = .exit then .halted else .running)

/-- RUN repeats STEP (R59): a RUN observed for one step is that step, and one observed for `m + n` steps is its first `m` steps
followed by `n` more while it is in Running, and stays where it ended otherwise. To observe a RUN for a number of steps is the
model's choice (log 20). -/
def Obligations.RunsComposeAndEndOnce : Prop :=
  (∀ s : State, runFor 0 s = .next s ∧ runFor 1 s = step s) ∧
  ∀ (m n : Nat) (s t : State), s.run = .running → runFor m s = .next t →
    (t.run = .running → runFor (m + n) s = runFor n t) ∧ (t.run ≠ .running → runFor (m + n) s = .next t)

/-- The machine never reads what the sink has accepted (R74: "The VM never reads from this sink"): more bytes before it change
nothing else. Both sides take the same draw of D6, whatever it is (log 5). -/
def Obligations.AcceptedBytesAreNeverRead : Prop :=
  ∀ (s : State) (before : List Byte),
    step (s.acceptedAfter before) = mapNext (State.acceptedAfter before) (step s)

/-- The host's placing of an instruction (the model's own, log 14): the very next step runs it, when it fits below the top of
memory. -/
def Obligations.PlacedInstructionIsTheNextOneRun : Prop :=
  ∀ (i : Instr) (s : State), MemoryInv s → s.run = .running → s.ip.toNat + 4 ≤ 4096 →
    step (s.withFetchWord (8 * i.width) (instructionValue (encode i))) =
      exec i (s.withFetchWord (8 * i.width) (instructionValue (encode i)))

/-! ### Register instructions (41_alu_and_moves.md) -/

/-- R67: `move_if a, b, c`. Where an operand names register 0, the view and the
order of the writes are the spec's own decision D2 (log 1). -/
def Obligations.MoveIfFollowsItsRule : Prop :=
  ∀ s : State,
    (∀ a b c : Byte, encode (.moveIf a b c) = [0x01, a, b, c]) ∧
    (∀ a b c : Byte, s.run = .running → 4096 < s.ip.toNat + 4 →
      exec (.moveIf a b c) s = .next (s.setRun (.errored .invalidMemoryAccess))) ∧
    (∀ a b c : Byte, CanExecute 4 s → 16 ≤ a.toNat ∨ 16 ≤ b.toNat ∨ 16 ≤ c.toNat →
      exec (.moveIf a b c) s = .next (s.setRun (.errored .invalidRegisterAccess))) ∧
    (∀ a b c : Reg, CanExecute 4 s →
      ∃ t, exec (.moveIf (regByte a) (regByte b) (regByte c)) s = .next t ∧ t.run = .running ∧
        MemoryKept s t ∧ SinkKept s t ∧ RegsKept [0, a] s t ∧
        (s.view 4 c ≠ 0 → t.reg a = s.view 4 b) ∧
        (s.view 4 c ≠ 0 → a ≠ 0 → (t.reg 0).toNat = s.ip.toNat + 4) ∧
        (s.view 4 c = 0 → (t.reg 0).toNat = s.ip.toNat + 4 ∧ RegsKept [0] s t))

/-- R68: `loadimm a, L, H`. Where `a` names register 0, the order of the writes is the spec's own decision D2 (log 1). -/
def Obligations.LoadimmFollowsItsRule : Prop :=
  ∀ s : State,
    (∀ a l h : Byte, encode (.loadimm a l h) = [0x04, a, l, h]) ∧
    (∀ a l h : Byte, s.run = .running → 4096 < s.ip.toNat + 4 →
      exec (.loadimm a l h) s = .next (s.setRun (.errored .invalidMemoryAccess))) ∧
    (∀ a l h : Byte, CanExecute 4 s → 16 ≤ a.toNat →
      exec (.loadimm a l h) s = .next (s.setRun (.errored .invalidRegisterAccess))) ∧
    (∀ (a : Reg) (l h : Byte), CanExecute 4 s →
      ∃ t, exec (.loadimm (regByte a) l h) s = .next t ∧ t.run = .running ∧
        MemoryKept s t ∧ SinkKept s t ∧ RegsKept [0, a] s t ∧
        (t.reg a).toNat = h.toNat * 256 + l.toNat + (if h.toNat < 0x80 then 0 else 0xFFFF0000) ∧
        (a ≠ 0 → (t.reg 0).toNat = s.ip.toNat + 4))

/-- R69: `sub a, b, c`. Where an operand names register 0, the view and the
order of the writes are the spec's own decision D2 (log 1). -/
def Obligations.SubFollowsItsRule : Prop :=
  ∀ s : State,
    (∀ a b c : Byte, encode (.sub a b c) = [0x05, a, b, c]) ∧
    (∀ a b c : Byte, s.run = .running → 4096 < s.ip.toNat + 4 →
      exec (.sub a b c) s = .next (s.setRun (.errored .invalidMemoryAccess))) ∧
    (∀ a b c : Byte, CanExecute 4 s → 16 ≤ a.toNat ∨ 16 ≤ b.toNat ∨ 16 ≤ c.toNat →
      exec (.sub a b c) s = .next (s.setRun (.errored .invalidRegisterAccess))) ∧
    (∀ a b c : Reg, CanExecute 4 s →
      ∃ t, exec (.sub (regByte a) (regByte b) (regByte c)) s = .next t ∧ t.run = .running ∧
        MemoryKept s t ∧ SinkKept s t ∧ RegsKept [0, a] s t ∧
        (t.reg a).toNat = ((s.view 4 b).toNat + 2 ^ 32 - (s.view 4 c).toNat) % 2 ^ 32 ∧
        (a ≠ 0 → (t.reg 0).toNat = s.ip.toNat + 4))

/-- R70: the result is `p - q` if `p >= q` and `p - q + 2^32` otherwise; the same bits are the difference of the signed readings
reduced modulo 2^32. -/
def Obligations.SubtractionIsModuloTwoToThe32 : Prop :=
  ∀ p q : Word,
    (q.toNat ≤ p.toNat → (subWrap p q).toNat = p.toNat - q.toNat) ∧
    (p.toNat < q.toNat → (subWrap p q).toNat + q.toNat = p.toNat + 2 ^ 32) ∧
    ((subWrap p q).toNat : Int) = (p.toInt - q.toInt) % 2 ^ 32

/-- The idioms of R49 under the spec's decision D2: jumps by `loadimm r0`, `move_if r0`, `sub r0, r0, rK` and `load r0`, and the
unconditional copy `move_if rD, rS, r0`. -/
def Obligations.RegisterZeroIdiomsTransferControl : Prop :=
  ∀ s : State,
    (∀ l h : Byte, CanExecute 4 s → ∃ t, exec (.loadimm 0 l h) s = .next t ∧ t.ip = immediate l h ∧
      (0x80 ≤ h.toNat → step t = .next (t.setRun (.errored .invalidMemoryAccess)))) ∧
    (∀ b c : Reg, CanExecute 4 s → c ≠ 0 → b ≠ 0 → ∃ t, exec (.moveIf 0 (regByte b) (regByte c)) s = .next t ∧
      (s.reg c ≠ 0 → t.ip = s.reg b) ∧ (s.reg c = 0 → t.ip.toNat = s.ip.toNat + 4)) ∧
    (∀ a b : Reg, CanExecute 4 s → b ≠ 0 → ∃ t, exec (.moveIf (regByte a) (regByte b) 0) s = .next t ∧
      t.reg a = s.reg b) ∧
    (∀ c : Reg, CanExecute 4 s → c ≠ 0 → ∃ t, exec (.sub 0 0 (regByte c)) s = .next t ∧
      t.ip.toNat = (s.ip.toNat + 4 + 2 ^ 32 - (s.reg c).toNat) % 2 ^ 32) ∧
    (∀ b : Reg, CanExecute 3 s → b ≠ 0 → (s.reg b).toNat + 4 ≤ 4096 →
      ∃ t, exec (.load 0 (regByte b)) s = .next t ∧ t.ip = s.mem.readWord (s.reg b).toNat)

/-! ### Memory instructions (20_memory.md, 42_memory_ops.md) -/

/-- R25 and R26: a word write puts bits 8k+7 to 8k of the value in byte `a + k` and changes no other byte; a word read is the
little-endian sum of its four bytes; a read after a write returns the value. In canonical memory, in range. -/
def Obligations.WordsAreLittleEndianAndReadBack : Prop :=
  ∀ (m : Memory) (a : Nat) (v : Word), m.wf → a + 4 ≤ 4096 →
    (∀ k, k < 4 → ((m.writeWord a v).read (a + k)).toNat = v.toNat / 256 ^ k % 256) ∧
    (∀ x, x < a ∨ a + 4 ≤ x → (m.writeWord a v).read x = m.read x) ∧
    (m.readWord a).toNat = (m.read a).toNat + 2 ^ 8 * (m.read (a + 1)).toNat + 2 ^ 16 * (m.read (a + 2)).toNat +
      2 ^ 24 * (m.read (a + 3)).toNat ∧
    (m.writeWord a v).readWord a = v

/-- R29 and R30: a data access at any address, aligned or not, completes exactly when `a + 4 <= MEM_SIZE`, the sum exact (the
spec's own decision D4, log 3), and raises InvalidMemoryAccess and changes nothing otherwise (D3, log 2). -/
def Obligations.DataAddressRangeIsExact : Prop :=
  ∀ (s : State) (a b : Reg), CanExecute 3 s →
    ((s.view 3 a).toNat + 4 ≤ 4096 →
      ∃ t, exec (.store (regByte a) (regByte b)) s = .next t ∧ t.run = .running) ∧
    (4096 < (s.view 3 a).toNat + 4 →
      exec (.store (regByte a) (regByte b)) s = .next (s.setRun (.errored .invalidMemoryAccess))) ∧
    ((s.view 3 b).toNat + 4 ≤ 4096 →
      ∃ t, exec (.load (regByte a) (regByte b)) s = .next t ∧ t.run = .running) ∧
    (4096 < (s.view 3 b).toNat + 4 →
      exec (.load (regByte a) (regByte b)) s = .next (s.setRun (.errored .invalidMemoryAccess)))

/-- R72: `store a, b`. The stored bytes are read back under the memory invariant. Where an operand names register 0, its view is
the spec's own decision D2 (log 1); that a failed check changes nothing is its decision D3 (log 2), the exact sum D4 (log 3). -/
def Obligations.StoreFollowsItsRule : Prop :=
  ∀ s : State,
    (∀ a b : Byte, encode (.store a b) = [0x02, a, b]) ∧
    (∀ a b : Byte, s.run = .running → 4096 < s.ip.toNat + 3 →
      exec (.store a b) s = .next (s.setRun (.errored .invalidMemoryAccess))) ∧
    (∀ a b : Byte, CanExecute 3 s → 16 ≤ a.toNat ∨ 16 ≤ b.toNat →
      exec (.store a b) s = .next (s.setRun (.errored .invalidRegisterAccess))) ∧
    (∀ a b : Reg, CanExecute 3 s → 4096 < (s.view 3 a).toNat + 4 →
      exec (.store (regByte a) (regByte b)) s = .next (s.setRun (.errored .invalidMemoryAccess))) ∧
    (∀ a b : Reg, CanExecute 3 s → MemoryInv s → (s.view 3 a).toNat + 4 ≤ 4096 →
      ∃ t, exec (.store (regByte a) (regByte b)) s = .next t ∧ t.run = .running ∧ SinkKept s t ∧
        RegsKept [0] s t ∧ (t.reg 0).toNat = s.ip.toNat + 3 ∧
        (∀ k, k < 4 → (t.mem.read ((s.view 3 a).toNat + k)).toNat = (s.view 3 b).toNat / 256 ^ k % 256) ∧
        (∀ x, x < (s.view 3 a).toNat ∨ (s.view 3 a).toNat + 4 ≤ x → t.mem.read x = s.mem.read x))

/-- R73: `load a, b`. Where an operand names register 0, the view and the order of the writes are the spec's own decision D2
(log 1); that a failed check changes nothing is its decision D3 (log 2), the exact sum D4 (log 3). -/
def Obligations.LoadFollowsItsRule : Prop :=
  ∀ s : State,
    (∀ a b : Byte, encode (.load a b) = [0x03, a, b]) ∧
    (∀ a b : Byte, s.run = .running → 4096 < s.ip.toNat + 3 →
      exec (.load a b) s = .next (s.setRun (.errored .invalidMemoryAccess))) ∧
    (∀ a b : Byte, CanExecute 3 s → 16 ≤ a.toNat ∨ 16 ≤ b.toNat →
      exec (.load a b) s = .next (s.setRun (.errored .invalidRegisterAccess))) ∧
    (∀ a b : Reg, CanExecute 3 s → 4096 < (s.view 3 b).toNat + 4 →
      exec (.load (regByte a) (regByte b)) s = .next (s.setRun (.errored .invalidMemoryAccess))) ∧
    (∀ a b : Reg, CanExecute 3 s → (s.view 3 b).toNat + 4 ≤ 4096 →
      ∃ t, exec (.load (regByte a) (regByte b)) s = .next t ∧ t.run = .running ∧ MemoryKept s t ∧ SinkKept s t ∧
        RegsKept [0, a] s t ∧
        (t.reg a).toNat = (s.mem.read (s.view 3 b).toNat).toNat +
          2 ^ 8 * (s.mem.read ((s.view 3 b).toNat + 1)).toNat +
          2 ^ 16 * (s.mem.read ((s.view 3 b).toNat + 2)).toNat +
          2 ^ 24 * (s.mem.read ((s.view 3 b).toNat + 3)).toNat ∧
        (a ≠ 0 → (t.reg 0).toNat = s.ip.toNat + 3))

/-- A `store` followed by a `load` at the same address returns the stored value (R26, R73), the two standing one after the
other; the address register is not the IP. -/
def Obligations.StoreThenLoadRoundTrips : Prop :=
  ∀ (s : State) (a b c : Reg), CanExecute 6 s → MemoryInv s → a ≠ 0 → (s.reg a).toNat + 4 ≤ 4096 →
    ∃ t u, exec (.store (regByte a) (regByte b)) s = .next t ∧ exec (.load (regByte c) (regByte a)) t = .next u ∧
      u.reg c = s.view 3 b

/-- A store is seen by the next fetch (R38): when the step after a `store` fetches one of the four stored bytes, it dispatches on
the byte stored there, here the opcode of `exit` or an illegal one. -/
def Obligations.StoresAreSeenByTheNextFetch : Prop :=
  ∀ (s : State) (a b : Reg) (k : Nat), CanExecute 3 s → MemoryInv s → (s.view 3 a).toNat + 4 ≤ 4096 → k < 4 →
    s.ip.toNat + 3 = (s.view 3 a).toNat + k →
    ∃ t, exec (.store (regByte a) (regByte b)) s = .next t ∧
      ((s.view 3 b).toNat / 256 ^ k % 256 = 7 → step t = exec .exit t) ∧
      ((s.view 3 b).toNat / 256 ^ k % 256 = 0 → step t = .next (t.setRun (.errored .invalidInstruction)))

/-! ### Output and termination (43_io_and_halt.md) -/

/-- R74: one SINK_WRITE of the whole string. Answered ok, the sink has accepted all of it and the step goes on; answered fail,
the step raises IoFailure, the sink has accepted its first `n` bytes, `x[0]` is `ip` or `ip + w`, every other register and all of
memory are unchanged; never answered, the step has no end. `out` and `out_number` make one request each once their checks pass;
no other instruction reaches the sink. It rests on the spec's own decisions D6 and D7 (log 5, log 7), and that a sink which never
answers makes the fault `sinkNeverAnswers` is the model's choice (log 8). -/
def Obligations.EmitFollowsTheSinkPort : Prop :=
  (∀ (s : State) (w : Nat) (bytes : List Byte), CanExecute w s →
    (s.sink.answer = .ok → ∃ t, s.emit w bytes = .next t ∧ Emitted w bytes s t) ∧
    (∀ n e, s.sink.answer = .fail n e → ∃ t, s.emit w bytes = .next t ∧ IoFailed w bytes n e s t) ∧
    (s.sink.answer = .never → s.emit w bytes = .fault .sinkNeverAnswers)) ∧
  (∀ (i : Instr) (s t : State), exec i s = .next t → (∀ a, i ≠ .out a) → (∀ a, i ≠ .outNumber a) → SinkKept s t) ∧
  (∀ (i : Instr) (s t : State), exec i s = .next t → CanExecute i.width s → i.wellFormed = true → usesSink i = true →
    t.sink = s.sink.afterAnswer)

/-- R75: `out a`, under both values of OUT_BYTE_ENCODING (the spec leaves it open: D5, log 4). The view of register 0 is the spec's
own decision D2 (log 1), the state after IoFailure D6 and D7 (log 5, log 7). -/
def Obligations.OutFollowsItsRule : Prop :=
  ∀ s : State,
    (∀ a : Byte, encode (.out a) = [0x06, a]) ∧
    (∀ a : Byte, s.run = .running → 4096 < s.ip.toNat + 2 →
      exec (.out a) s = .next (s.setRun (.errored .invalidMemoryAccess))) ∧
    (∀ a : Byte, CanExecute 2 s → 16 ≤ a.toNat →
      exec (.out a) s = .next (s.setRun (.errored .invalidRegisterAccess))) ∧
    (∀ (a : Reg) (low : Nat) (bytes : List Byte), CanExecute 2 s → low = (s.view 2 a).toNat % 256 →
      bytes = (if low < 0x80 then [BitVec.ofNat 8 low]
        else if Config.outByteEncoding = .raw then [BitVec.ofNat 8 low]
        else [BitVec.ofNat 8 (0xC0 + low / 64), BitVec.ofNat 8 (0x80 + low % 64)]) →
      (s.sink.answer = .ok → ∃ t, exec (.out (regByte a)) s = .next t ∧ Emitted 2 bytes s t) ∧
      (∀ n e, s.sink.answer = .fail n e →
        ∃ t, exec (.out (regByte a)) s = .next t ∧ IoFailed 2 bytes n e s t))

/-- R76: `exit`. Once its opcode byte is within memory it cannot fail. -/
def Obligations.ExitFollowsItsRule : Prop :=
  encode .exit = [0x07] ∧
  ∀ s : State, s.run = .running → s.ip.toNat < 4096 →
    ∃ t, exec .exit s = .next t ∧ t.run = .halted ∧ (t.reg 0).toNat = s.ip.toNat + 1 ∧ RegsKept [0] s t ∧
      MemoryKept s t ∧ SinkKept s t

/-- R77: `out_number a`; the text is `DEC` of the signed reading (R78). The view of register 0 is the spec's own decision D2
(log 1), the state after IoFailure D6 and D7 (log 5, log 7), the text D13 (log 18). -/
def Obligations.OutNumberFollowsItsRule : Prop :=
  ∀ s : State,
    (∀ a : Byte, encode (.outNumber a) = [0x08, a]) ∧
    (∀ a : Byte, s.run = .running → 4096 < s.ip.toNat + 2 →
      exec (.outNumber a) s = .next (s.setRun (.errored .invalidMemoryAccess))) ∧
    (∀ a : Byte, CanExecute 2 s → 16 ≤ a.toNat →
      exec (.outNumber a) s = .next (s.setRun (.errored .invalidRegisterAccess))) ∧
    (∀ (a : Reg) (n : Int), CanExecute 2 s →
      n = (if (s.view 2 a).toNat < 2 ^ 31 then ((s.view 2 a).toNat : Int) else (s.view 2 a).toNat - 2 ^ 32) →
      (s.sink.answer = .ok → ∃ t, exec (.outNumber (regByte a)) s = .next t ∧ Emitted 2 (decimal n) s t) ∧
      (∀ k e, s.sink.answer = .fail k e →
        ∃ t, exec (.outNumber (regByte a)) s = .next t ∧ IoFailed 2 (decimal n) k e s t))

/-- R78: `DEC(n)` is a minus sign and the numeral of `-n` for a negative number, `0` for zero, the numeral of `n` for a positive
one, 1 to 11 bytes; a numeral has no leading zero (the spec's own decision D13, log 18). -/
def Obligations.DecimalTextIsTheNumeral : Prop :=
  ∀ n : Int, -2 ^ 31 ≤ n → n < 2 ^ 31 →
    (n < 0 → ∃ ds, decimal n = 0x2D :: ds ∧ IsNumeral ds n.natAbs) ∧
    (n = 0 → decimal n = [0x30]) ∧
    (0 < n → IsNumeral (decimal n) n.natAbs) ∧
    1 ≤ (decimal n).length ∧ (decimal n).length ≤ 11
end

