-- ==== Sys2Proof/Laws/Decode.lean ====
section
/-! SUPPORT. The laws of the opcode map and of the operand bytes (30_encoding.md R41 to R47). -/

namespace Sys2Proof

/-- An opcode's byte selects it (R46). -/
@[simp] theorem ofByte_byte (op : Opcode) : Opcode.ofByte op.byte = some op := by cases op <;> rfl

/-- Only its byte selects an opcode: no two rows of R46 overlap. -/
theorem byte_of_ofByte {b : Byte} {op : Opcode} (h : Opcode.ofByte b = some op) : b = op.byte := by
  apply BitVec.eq_of_toNat_eq
  unfold Opcode.ofByte at h
  split at h <;> first | (cases h; assumption) | cases h

/-- The bytes that select no opcode are 0x00 and 0x09 to 0xFF (R47). -/
theorem ofByte_eq_none_iff {b : Byte} : Opcode.ofByte b = none ↔ b.toNat = 0 ∨ 9 ≤ b.toNat := by
  unfold Opcode.ofByte
  split
  case h_9 h1 h2 h3 h4 h5 h6 h7 h8 =>
    rw [imp_false] at h1 h2 h3 h4 h5 h6 h7 h8
    simp only [true_iff]; omega
  all_goals simp only [reduceCtorEq, false_iff]; omega

theorem one_le_width (op : Opcode) : 1 ≤ op.width := by cases op <;> decide

theorem width_le_four (op : Opcode) : op.width ≤ longestWidth := by cases op <;> decide

@[simp] theorem opcode_build (op : Opcode) (o : Nat → Byte) : (op.build o).opcode = op := by cases op <;> rfl

/-- Two fetches that agree on the operand bytes give one instruction (R40). -/
theorem build_congr {op : Opcode} {o p : Nat → Byte} (h : ∀ k, 1 ≤ k → k < op.width → o k = p k) :
    op.build o = op.build p := by
  cases op <;> simp_all [Opcode.build, Opcode.width]

theorem length_operandBytes (i : Instr) : i.operandBytes.length + 1 = i.width := by cases i <;> rfl

/-- An instruction is built from its own operand bytes (R43). -/
theorem build_operandBytes (i : Instr) (rest : List Byte) :
    i.opcode.build (fun k => (i.operandBytes ++ rest).getD (k - 1) 0) = i := by cases i <;> rfl

/-- The operand bytes of a built instruction are the bytes it was built from. -/
theorem operandBytes_build (op : Opcode) {l : List Byte} (h : ¬ l.length + 1 < op.width) :
    (op.build fun k => l.getD (k - 1) 0).operandBytes = l.take (op.width - 1) := by
  match op, l with
  | .exit, l => simp [Opcode.build, Instr.operandBytes, Opcode.width]
  | .out, a :: _ => rfl
  | .outNumber, a :: _ => rfl
  | .store, a :: b :: _ => rfl
  | .load, a :: b :: _ => rfl
  | .moveIf, a :: b :: c :: _ => rfl
  | .loadimm, a :: b :: c :: _ => rfl
  | .sub, a :: b :: c :: _ => rfl
  | .out, [] => simp [Opcode.width] at h
  | .outNumber, [] => simp [Opcode.width] at h
  | .store, [] => simp [Opcode.width] at h
  | .store, [_] => simp [Opcode.width] at h
  | .load, [] => simp [Opcode.width] at h
  | .load, [_] => simp [Opcode.width] at h
  | .moveIf, [] => simp [Opcode.width] at h
  | .moveIf, [_] => simp [Opcode.width] at h
  | .moveIf, [_, _] => simp [Opcode.width] at h
  | .loadimm, [] => simp [Opcode.width] at h
  | .loadimm, [_] => simp [Opcode.width] at h
  | .loadimm, [_, _] => simp [Opcode.width] at h
  | .sub, [] => simp [Opcode.width] at h
  | .sub, [_] => simp [Opcode.width] at h
  | .sub, [_, _] => simp [Opcode.width] at h

@[simp] theorem toNat_regByte (r : Reg) : (regByte r).toNat = r.val := by
  have h : r.val < 16 := r.isLt
  simp only [regByte, BitVec.toNat_ofNat]
  omega

theorem length_littleEndianBytes (n v : Nat) : (littleEndianBytes n v).length = n := by
  induction n generalizing v with
  | zero => rfl
  | succ n ih => simp [littleEndianBytes, ih]

/-- The bytes of a little-endian number begin with the bytes it was read from (R42). -/
theorem littleEndianBytes_instructionValue (l : List Byte) (n : Nat) :
    littleEndianBytes (l.length + n) (instructionValue l) = l ++ List.replicate n 0 := by
  induction l with
  | nil =>
    simp only [List.length_nil, Nat.zero_add, instructionValue, List.nil_append]
    induction n with
    | zero => rfl
    | succ n ih => simp [littleEndianBytes, List.replicate_succ, ih]
  | cons b rest ih =>
    have hb : b.toNat < 256 := b.isLt
    have hd : (b.toNat + 256 * instructionValue rest) / 256 = instructionValue rest := by omega
    have hm : BitVec.ofNat 8 (b.toNat + 256 * instructionValue rest) = b := by
      apply BitVec.eq_of_toNat_eq
      simp only [BitVec.toNat_ofNat]
      omega
    rw [List.length_cons, Nat.add_right_comm, littleEndianBytes, instructionValue, hd, hm, ih]
    rfl

/-- An instruction value has 8 bits a byte (R42). -/
theorem instructionValue_lt (l : List Byte) : instructionValue l < 2 ^ (8 * l.length) := by
  induction l with
  | nil => simp [instructionValue]
  | cons b rest ih =>
    have hb : b.toNat < 256 := b.isLt
    have : 2 ^ (8 * (rest.length + 1)) = 256 * 2 ^ (8 * rest.length) := by rw [Nat.mul_add, pow_add]; omega
    rw [List.length_cons, instructionValue, this]
    omega

end Sys2Proof
end

