-- ==== Sys2Proof/Laws/Memory.lean ====
section
/-! SUPPORT. The laws of memory: read after write, the canonical form kept by every operation (20_memory.md R25 to R35). -/

namespace Sys2Proof.Machine

/-! ### Cells -/

/-- The list form of `Memory.wf`. -/
abbrev CellsWf (l : List Host.Cell) : Prop :=
  l.Pairwise (fun x y => x.1 < y.1) ∧ ∀ c ∈ l, c.1 < Config.memSize ∧ c.2 ≠ Memory.unlisted

/-- An address below every listed one reads as unlisted. -/
theorem readCells_below {l : List Host.Cell} {a : Nat} (h : ∀ c ∈ l, a < c.1) :
    readCells l a = Memory.unlisted := by
  induction l with
  | nil => rfl
  | cons c rest ih =>
    have hc : a < c.1 := h c (by simp)
    have hr := ih fun d hd => h d (by simp [hd])
    simp only [readCells, hr]
    split <;> [omega; rfl]

/-- A listed byte is what its address reads as. -/
theorem readCells_of_mem {l : List Host.Cell} (hp : l.Pairwise (fun x y => x.1 < y.1)) {c : Host.Cell}
    (hc : c ∈ l) : readCells l c.1 = c.2 := by
  induction l with
  | nil => simp at hc
  | cons d rest ih =>
    rw [List.pairwise_cons] at hp
    rcases List.mem_cons.1 hc with rfl | hc
    · simp [readCells]
    · have hlt := hp.1 c hc
      have hne : ¬ d.1 = c.1 := by omega
      simp only [readCells, hne, if_false]
      exact ih hp.2 hc

/-- A write leaves every other address alone. -/
theorem readCells_write_ne (l : List Host.Cell) {a x : Nat} (b : Byte) (h : x ≠ a) :
    readCells (writeCells l a b) x = readCells l x := by
  induction l with
  | nil =>
    have h' : ¬ a = x := fun e => h e.symm
    simp only [writeCells]; split <;> simp [readCells, h']
  | cons c rest ih =>
    have h' : ¬ a = x := fun e => h e.symm
    obtain ⟨k, v⟩ := c
    simp only [writeCells]
    split
    · simp [readCells, ih]
    · by_cases hk : k = a
      · subst hk; split <;> simp [readCells, h']
      · split <;> simp [readCells, h']

/-- A read after a write to the same address gives the byte written. -/
theorem readCells_write_eq {l : List Host.Cell} (hp : l.Pairwise (fun x y => x.1 < y.1)) (a : Nat) (b : Byte) :
    readCells (writeCells l a b) a = b := by
  induction l with
  | nil => simp only [writeCells]; split <;> simp [readCells, *]
  | cons c rest ih =>
    obtain ⟨k, v⟩ := c
    rw [List.pairwise_cons] at hp
    simp only [writeCells]
    split
    · next hlt =>
      have hne : ¬ k = a := by omega
      simp only [readCells, hne, if_false]
      exact ih hp.2
    · next hge =>
      split
      · next hb =>
        rw [hb]
        apply readCells_below
        by_cases hk : k = a
        · subst hk; simpa using hp.1
        · have hak : a < k := by omega
          simp only [hk, if_false, List.mem_cons]
          rintro d (rfl | hd)
          · exact hak
          · have := hp.1 d hd; simp only at this; omega
      · simp [readCells]

/-- A written list holds the new cell and cells of the old list only. -/
theorem mem_writeCells {l : List Host.Cell} {a : Nat} {b : Byte} {c : Host.Cell} (h : c ∈ writeCells l a b) :
    (c = (a, b) ∧ b ≠ Memory.unlisted) ∨ c ∈ l := by
  induction l with
  | nil =>
    simp only [writeCells] at h
    split at h
    · simp at h
    · exact .inl ⟨List.mem_singleton.1 h, ‹_›⟩
  | cons d rest ih =>
    obtain ⟨k, v⟩ := d
    simp only [writeCells] at h
    split at h
    · rcases List.mem_cons.1 h with h | h
      · right; simp [h]
      · rcases ih h with h | h
        · exact .inl h
        · right; simp [h]
    · have tail_sub : c ∈ (if k = a then rest else (k, v) :: rest) → c ∈ (k, v) :: rest := by
        split <;> intro hc <;> simp_all
      split at h
      · exact .inr (tail_sub h)
      · rcases List.mem_cons.1 h with h | h
        · exact .inl ⟨h, ‹_›⟩
        · exact .inr (tail_sub h)

/-- A write keeps the addresses rising. -/
theorem pairwise_writeCells {l : List Host.Cell} (hp : l.Pairwise (fun x y => x.1 < y.1)) (a : Nat) (b : Byte) :
    (writeCells l a b).Pairwise (fun x y => x.1 < y.1) := by
  induction l with
  | nil => simp only [writeCells]; split <;> simp
  | cons c rest ih =>
    obtain ⟨k, v⟩ := c
    have hp' := List.pairwise_cons.1 hp
    simp only [writeCells]
    split
    · next hlt =>
      refine List.pairwise_cons.2 ⟨fun d hd => ?_, ih hp'.2⟩
      rcases mem_writeCells hd with ⟨rfl, -⟩ | hd
      · exact hlt
      · exact hp'.1 d hd
    · next hge =>
      by_cases hk : k = a
      · subst hk
        simp only [if_true]
        split
        · exact hp'.2
        · exact List.pairwise_cons.2 ⟨hp'.1, hp'.2⟩
      · have hak : a < k := by omega
        simp only [hk, if_false]
        split
        · exact hp
        · refine List.pairwise_cons.2 ⟨fun d hd => ?_, hp⟩
          rcases List.mem_cons.1 hd with rfl | hd
          · exact hak
          · have := hp'.1 d hd; simp only at this ⊢; omega

/-! ### Bytes -/

/-- Every memory operation that writes one existing byte keeps the canonical form. -/
theorem wf_write {m : Memory} (h : m.wf) {a : Nat} (ha : a < Config.memSize) (b : Byte) : (m.write a b).wf := by
  refine ⟨pairwise_writeCells h.1 a b, fun c hc => ?_⟩
  rcases mem_writeCells hc with ⟨rfl, hb⟩ | hc
  · exact ⟨ha, hb⟩
  · exact h.2 c hc

theorem read_write_eq {m : Memory} (h : m.wf) (a : Nat) (b : Byte) : (m.write a b).read a = b :=
  readCells_write_eq h.1 a b

theorem read_write_ne (m : Memory) {a x : Nat} (b : Byte) (h : x ≠ a) : (m.write a b).read x = m.read x :=
  readCells_write_ne m.cells b h

/-- Memory after reset is in canonical form. -/
theorem wf_empty : (⟨[]⟩ : Memory).wf := by simp [Memory.wf]

@[simp] theorem read_empty (a : Nat) : (⟨[]⟩ : Memory).read a = 0 := rfl

/-! ### Runs of bytes -/

theorem wf_writeBytes {m : Memory} (h : m.wf) {a : Nat} {l : List Byte} (hl : a + l.length ≤ Config.memSize) :
    (m.writeBytes a l).wf := by
  induction l generalizing m a with
  | nil => exact h
  | cons b rest ih =>
    simp only [List.length_cons] at hl
    have ha : a < Config.memSize := by omega
    exact ih (wf_write h ha b) (by omega)

/-- Bytes outside the written run are untouched. -/
theorem read_writeBytes_out (m : Memory) (a : Nat) (l : List Byte) {x : Nat} (hx : x < a ∨ a + l.length ≤ x) :
    (m.writeBytes a l).read x = m.read x := by
  induction l generalizing m a with
  | nil => rfl
  | cons b rest ih =>
    simp only [List.length_cons] at hx
    rw [Memory.writeBytes, ih (m.write a b) (a + 1) (by omega), read_write_ne m b (by omega)]

/-- Byte `k` of the written run is byte `k` of the list. -/
theorem read_writeBytes_in {m : Memory} (h : m.wf) {a : Nat} {l : List Byte} (hl : a + l.length ≤ Config.memSize)
    {k : Nat} (hk : k < l.length) : (m.writeBytes a l).read (a + k) = l[k] := by
  induction l generalizing m a k with
  | nil => simp at hk
  | cons b rest ih =>
    simp only [List.length_cons] at hl hk
    have ha : a < Config.memSize := by omega
    rw [Memory.writeBytes]
    cases k with
    | zero =>
      rw [read_writeBytes_out _ _ _ (by omega), Nat.add_zero, read_write_eq h]
      rfl
    | succ j =>
      have := ih (wf_write h ha b) (a := a + 1) (by omega) (k := j) (by omega)
      simpa [Nat.add_assoc, Nat.add_comm 1 j] using this

theorem wf_placeBytes {m : Memory} (h : m.wf) (a : Nat) (l : List Byte) : (m.placeBytes a l).wf := by
  by_cases ha : a ≤ Config.memSize
  · exact wf_writeBytes h (by simp only [List.length_take]; omega)
  · have : Config.memSize - a = 0 := by omega
    rw [Memory.placeBytes, this]
    exact h

/-- Bytes that fit are placed whole. -/
theorem placeBytes_of_fits {m : Memory} {a : Nat} {l : List Byte} (hl : a + l.length ≤ Config.memSize) :
    m.placeBytes a l = m.writeBytes a l := by
  have : l.take (Config.memSize - a) = l := List.take_of_length_le (by omega)
  rw [Memory.placeBytes, this]

@[simp] theorem length_readBytes (m : Memory) (a n : Nat) : (m.readBytes a n).length = n := by
  induction n generalizing a with
  | zero => rfl
  | succ n ih => simp [Memory.readBytes, ih]

/-- Byte `k` of a run read from `a` is the byte at `a + k`. -/
theorem getElem_readBytes (m : Memory) (a n : Nat) {k : Nat} (hk : k < (m.readBytes a n).length) :
    (m.readBytes a n)[k] = m.read (a + k) := by
  induction n generalizing a k with
  | zero => simp at hk
  | succ n ih =>
    cases k with
    | zero => rfl
    | succ j =>
      simp only [Memory.readBytes, List.getElem_cons_succ]
      rw [ih (a + 1) (by simpa [Memory.readBytes] using hk)]
      congr 1; omega

/-! ### Words -/

@[simp] theorem length_wordBytes (v : Word) : (wordBytes v).length = 4 := rfl

theorem wf_writeWord {m : Memory} (h : m.wf) {a : Nat} (ha : a + 4 ≤ Config.memSize) (v : Word) :
    (m.writeWord a v).wf := wf_writeBytes h (by simpa using ha)

/-- A word write leaves every byte outside its four alone (R26). -/
theorem read_writeWord_out (m : Memory) (a : Nat) (v : Word) {x : Nat} (hx : x < a ∨ a + 4 ≤ x) :
    (m.writeWord a v).read x = m.read x := read_writeBytes_out m a _ (by simpa using hx)

/-- Byte `k` of a written word is bits `8k+7` to `8k` of the value (R26, R28). -/
theorem read_writeWord_in {m : Memory} (h : m.wf) {a : Nat} (ha : a + 4 ≤ Config.memSize) (v : Word) {k : Nat}
    (hk : k < 4) : (m.writeWord a v).read (a + k) = v.extractLsb' (8 * k) 8 := by
  rw [Memory.writeWord, read_writeBytes_in h (by simpa using ha) (by simpa using hk)]
  match k, hk with
  | 0, _ => rfl
  | 1, _ => rfl
  | 2, _ => rfl
  | 3, _ => rfl

/-- `MemRead` and `MemWrite` are inverses (R26). -/
theorem readWord_writeWord {m : Memory} (h : m.wf) {a : Nat} (ha : a + 4 ≤ Config.memSize) (v : Word) :
    (m.writeWord a v).readWord a = v := by
  have h0 := read_writeWord_in h ha v (k := 0) (by omega)
  have h1 := read_writeWord_in h ha v (k := 1) (by omega)
  have h2 := read_writeWord_in h ha v (k := 2) (by omega)
  have h3 := read_writeWord_in h ha v (k := 3) (by omega)
  rw [Nat.add_zero] at h0
  rw [Memory.readWord, h0, h1, h2, h3]
  apply BitVec.eq_of_getLsbD_eq
  intro i hi
  simp only [BitVec.getLsbD_append, BitVec.getLsbD_extractLsb']
  by_cases h8 : i < 8
  · simp [h8]
  · by_cases h16 : i - 8 < 8
    · simp [h8, h16, show 8 * 1 + (i - 8) = i by omega]
    · by_cases h24 : i - 8 - 8 < 8
      · simp [h8, h16, h24, show 8 * 2 + (i - 8 - 8) = i by omega]
      · have h32 : i - 8 - 8 - 8 < 8 := by omega
        simp [h8, h16, h24, h32, show 8 * 3 + (i - 8 - 8 - 8) = i by omega]

/-- The value of a word read is the sum of R25. -/
theorem toNat_readWord (m : Memory) (a : Nat) :
    (m.readWord a).toNat =
      (m.read a).toNat + 2 ^ 8 * (m.read (a + 1)).toNat + 2 ^ 16 * (m.read (a + 2)).toNat +
        2 ^ 24 * (m.read (a + 3)).toNat := by
  have h0 := (m.read a).isLt
  have h1 := (m.read (a + 1)).isLt
  have h2 := (m.read (a + 2)).isLt
  have h3 := (m.read (a + 3)).isLt
  simp only [Memory.readWord, BitVec.toNat_append]
  rw [← Nat.shiftLeft_add_eq_or_of_lt h0, ← Nat.shiftLeft_add_eq_or_of_lt h1, ← Nat.shiftLeft_add_eq_or_of_lt h2]
  simp only [Nat.shiftLeft_eq]
  omega

end Sys2Proof.Machine
end

