-- ==== Sys2Proof/Laws/State.lean ====
section
/-! SUPPORT. One lemma per field of State and update, so that no proof unfolds a record update. -/

namespace Sys2Proof.Machine

variable (s : State) (i : Reg) (v : Word) (w : Nat) (bytes : List Byte)

@[simp] theorem setReg_mem : (s.setReg i v).mem = s.mem := rfl
@[simp] theorem setReg_run : (s.setReg i v).run = s.run := rfl
@[simp] theorem setReg_accepted : (s.setReg i v).accepted = s.accepted := rfl
@[simp] theorem setReg_sink : (s.setReg i v).sink = s.sink := rfl
@[simp] theorem setReg_draws : (s.setReg i v).draws = s.draws := rfl

@[simp] theorem advance_mem : (s.advance w).mem = s.mem := rfl
@[simp] theorem advance_run : (s.advance w).run = s.run := rfl
@[simp] theorem advance_accepted : (s.advance w).accepted = s.accepted := rfl
@[simp] theorem advance_sink : (s.advance w).sink = s.sink := rfl
@[simp] theorem advance_draws : (s.advance w).draws = s.draws := rfl

@[simp] theorem sinkAccepts_regs : (s.sinkAccepts bytes).regs = s.regs := rfl
@[simp] theorem sinkAccepts_mem : (s.sinkAccepts bytes).mem = s.mem := rfl
@[simp] theorem sinkAccepts_run : (s.sinkAccepts bytes).run = s.run := rfl
@[simp] theorem sinkAccepts_accepted : (s.sinkAccepts bytes).accepted = s.accepted ++ bytes := rfl
@[simp] theorem sinkAccepts_sink : (s.sinkAccepts bytes).sink = s.sink.afterAnswer := rfl
@[simp] theorem sinkAccepts_draws : (s.sinkAccepts bytes).draws = s.draws := rfl
@[simp] theorem sinkAccepts_reg : (s.sinkAccepts bytes).reg i = s.reg i := rfl
@[simp] theorem sinkAccepts_ip : (s.sinkAccepts bytes).ip = s.ip := rfl

@[simp] theorem setRun_regs (r : RunState) : (s.setRun r).regs = s.regs := rfl
@[simp] theorem setRun_mem (r : RunState) : (s.setRun r).mem = s.mem := rfl
@[simp] theorem setRun_run (r : RunState) : (s.setRun r).run = r := rfl
@[simp] theorem setRun_accepted (r : RunState) : (s.setRun r).accepted = s.accepted := rfl
@[simp] theorem setRun_sink (r : RunState) : (s.setRun r).sink = s.sink := rfl
@[simp] theorem setRun_draws (r : RunState) : (s.setRun r).draws = s.draws := rfl
@[simp] theorem setRun_reg (r : RunState) : (s.setRun r).reg i = s.reg i := rfl
@[simp] theorem setRun_ip (r : RunState) : (s.setRun r).ip = s.ip := rfl

@[simp] theorem setMem_regs (m : Memory) : (s.setMem m).regs = s.regs := rfl
@[simp] theorem setMem_mem (m : Memory) : (s.setMem m).mem = m := rfl
@[simp] theorem setMem_run (m : Memory) : (s.setMem m).run = s.run := rfl
@[simp] theorem setMem_accepted (m : Memory) : (s.setMem m).accepted = s.accepted := rfl
@[simp] theorem setMem_sink (m : Memory) : (s.setMem m).sink = s.sink := rfl
@[simp] theorem setMem_draws (m : Memory) : (s.setMem m).draws = s.draws := rfl
@[simp] theorem setMem_reg (m : Memory) : (s.setMem m).reg i = s.reg i := rfl
@[simp] theorem setMem_ip (m : Memory) : (s.setMem m).ip = s.ip := rfl

/-- Register 0 is the IP (R13). -/
theorem reg_zero : s.reg 0 = s.ip := rfl

/-- A register reads as the last value written to it; every other register is untouched (R12). -/
@[simp] theorem reg_setReg (j : Reg) : (s.setReg i v).reg j = if i = j then v else s.reg j := by
  simp [State.reg, State.setReg, Vector.getElem_set, Fin.ext_iff]

@[simp] theorem ip_setReg : (s.setReg i v).ip = if i = 0 then v else s.ip := by
  simp [State.ip]

@[simp] theorem reg_advance (j : Reg) :
    (s.advance w).reg j = if j = 0 then s.ip + BitVec.ofNat 32 w else s.reg j := by
  simp [State.advance, eq_comm]

@[simp] theorem ip_advance : (s.advance w).ip = s.ip + BitVec.ofNat 32 w := by
  simp [State.advance]

@[simp] theorem drawIp_mem : (s.drawIp w).mem = s.mem := rfl
@[simp] theorem drawIp_run : (s.drawIp w).run = s.run := rfl
@[simp] theorem drawIp_accepted : (s.drawIp w).accepted = s.accepted := rfl
@[simp] theorem drawIp_sink : (s.drawIp w).sink = s.sink := rfl
@[simp] theorem drawIp_draws : (s.drawIp w).draws = s.draws + 1 := rfl

theorem drawIp_reg_eq (drawn : Word)
    (h : drawn = if Config.ipAdvancedByIoFailure s.draws then s.ip + BitVec.ofNat 32 w else s.ip) :
    (s.drawIp w).reg i = (s.setReg 0 drawn).reg i := by
  subst h; rfl

/-- The draw of D6 leaves every register but the IP alone. -/
theorem drawIp_reg {s : State} {i : Reg} {w : Nat} (h : i ≠ 0) : (s.drawIp w).reg i = s.reg i := by
  rw [drawIp_reg_eq s i w _ rfl, reg_setReg, if_neg (Ne.symm h)]

/-- The draw of D6 gives the IP one of its two values. -/
theorem drawIp_ip : (s.drawIp w).ip = s.ip ∨ (s.drawIp w).ip = s.ip + BitVec.ofNat 32 w := by
  rw [State.ip, drawIp_reg_eq s _ w _ rfl, reg_setReg, if_pos rfl]
  split
  · exact .inr rfl
  · exact .inl rfl

/-- While the span fits, the advance is exact: `ip + w` does not wrap (R15, R54). -/
theorem toNat_ip_add {s : State} {w : Nat} (h : s.ip.toNat + w ≤ Config.memSize) :
    (s.ip + BitVec.ofNat 32 w).toNat = s.ip.toNat + w := by
  have h' : s.ip.toNat + w ≤ 4096 := h
  simp only [BitVec.toNat_add, BitVec.toNat_ofNat]
  omega

/-- What an operand read sees is what the advanced state holds (R57, derived from R56). -/
theorem view_eq_advance_reg : s.view w i = (s.advance w).reg i := by
  simp [State.view]

theorem view_of_ne_zero {s : State} {i : Reg} {w : Nat} (h : i ≠ 0) : s.view w i = s.reg i := by
  simp [State.view, h]

theorem view_zero : s.view w 0 = s.ip + BitVec.ofNat 32 w := rfl

end Sys2Proof.Machine
end

