-- ==== Sys2Proof/Laws/Ops.lean ====
section
/-! SUPPORT. For each shared operation, what it answers: on the good path, and when it answers a next state. -/

namespace Sys2Proof.Machine

variable {s t : State} {k : Result}

/-! ### The run state -/

theorem whenRunning_of_running (h : s.run = .running) : whenRunning s k = k := by
  simp [whenRunning, h]

theorem whenRunning_of_not_running (h : s.run ≠ .running) : whenRunning s k = .refused .stepOutsideRunning := by
  cases hr : s.run <;> simp_all [whenRunning]

/-- A next state comes from a machine that was Running. -/
theorem whenRunning_next (h : whenRunning s k = .next t) : s.run = .running ∧ k = .next t := by
  cases hr : s.run <;> simp_all [whenRunning]

/-- Errors change nothing but the run state. -/
theorem raise_next {kind : ErrorKind} (h : s.raise kind = .next t) : t = s.setRun (.errored kind) := by
  simpa [State.raise, eq_comm] using h

/-! ### The checks -/

theorem checkSpan_of_fits {w : Nat} (h : s.ip.toNat + w ≤ Config.memSize) : checkSpan w s k = k := if_pos h

theorem checkSpan_of_overrun {w : Nat} (h : Config.memSize < s.ip.toNat + w) :
    checkSpan w s k = s.raise .invalidMemoryAccess := if_neg (by omega)

theorem checkReg_of_lt {r : Byte} {f : Reg → Result} (h : r.toNat < Config.nregs) :
    checkReg r s f = f ⟨r.toNat, h⟩ := dif_pos h

theorem checkReg_of_ge {r : Byte} {f : Reg → Result} (h : Config.nregs ≤ r.toNat) :
    checkReg r s f = s.raise .invalidRegisterAccess := dif_neg (by omega)

/-- A register's own byte names it. -/
theorem checkReg_of_eq {r : Byte} {i : Reg} {f : Reg → Result} (h : r.toNat = i.val) : checkReg r s f = f i := by
  have hi : r.toNat < Config.nregs := by have := i.isLt; omega
  rw [checkReg_of_lt hi]
  congr 1
  exact Fin.ext h

theorem wordInRange_iff {a : Nat} : wordInRange a = true ↔ a + 4 ≤ Config.memSize := by
  simp [wordInRange]

theorem checkWordAt_of_inRange {a : Word} (h : a.toNat + 4 ≤ Config.memSize) : checkWordAt a s k = k :=
  if_pos (wordInRange_iff.2 h)

theorem checkWordAt_of_outOfRange {a : Word} (h : Config.memSize < a.toNat + 4) :
    checkWordAt a s k = s.raise .invalidMemoryAccess :=
  if_neg (by rw [wordInRange_iff]; omega)

/-- A handler whose first checks pass is its effect. -/
theorem handler_of_canExecute {w : Nat} (hr : s.run = .running) (hf : s.ip.toNat + w ≤ Config.memSize) :
    handler w s k = k := by
  rw [handler, whenRunning_of_running hr, checkSpan_of_fits hf]

/-- A handler that answers a next state either failed its span check or goes on. -/
theorem handler_next {w : Nat} (h : handler w s k = .next t) :
    s.run = .running ∧
      ((Config.memSize < s.ip.toNat + w ∧ t = s.setRun (.errored .invalidMemoryAccess)) ∨
        (s.ip.toNat + w ≤ Config.memSize ∧ k = .next t)) := by
  obtain ⟨hr, h⟩ := whenRunning_next h
  refine ⟨hr, ?_⟩
  by_cases hf : s.ip.toNat + w ≤ Config.memSize
  · rw [checkSpan_of_fits hf] at h; exact .inr ⟨hf, h⟩
  · rw [checkSpan_of_overrun (by omega)] at h; exact .inl ⟨by omega, raise_next h⟩

/-- A register check that answers a next state either failed or passed a register on. -/
theorem checkReg_next {r : Byte} {f : Reg → Result} (h : checkReg r s f = .next t) :
    (Config.nregs ≤ r.toNat ∧ t = s.setRun (.errored .invalidRegisterAccess)) ∨
      ∃ i : Reg, r.toNat = i.val ∧ f i = .next t := by
  by_cases hr : r.toNat < Config.nregs
  · rw [checkReg_of_lt hr] at h; exact .inr ⟨⟨_, hr⟩, rfl, h⟩
  · rw [checkReg_of_ge (by omega)] at h; exact .inl ⟨by omega, raise_next h⟩

/-- A data-address check that answers a next state either failed or goes on. -/
theorem checkWordAt_next {a : Word} (h : checkWordAt a s k = .next t) :
    (Config.memSize < a.toNat + 4 ∧ t = s.setRun (.errored .invalidMemoryAccess)) ∨
      (a.toNat + 4 ≤ Config.memSize ∧ k = .next t) := by
  by_cases hr : a.toNat + 4 ≤ Config.memSize
  · rw [checkWordAt_of_inRange hr] at h; exact .inr ⟨hr, h⟩
  · rw [checkWordAt_of_outOfRange (by omega)] at h; exact .inl ⟨by omega, raise_next h⟩

/-! ### The sink port -/

variable {w : Nat} {bytes : List Byte}

theorem emit_of_ok (h : s.sink.answer = .ok) : s.emit w bytes = .next ((s.advance w).sinkAccepts bytes) := by
  simp [State.emit, h]

theorem emit_of_fail {n : Nat} {e : SinkError} (h : s.sink.answer = .fail n e) :
    s.emit w bytes = .next (((s.drawIp w).sinkAccepts (bytes.take n)).setRun (.errored (.ioFailure e))) := by
  simp [State.emit, State.raise, h]

theorem emit_of_never (h : s.sink.answer = .never) : s.emit w bytes = .fault .sinkNeverAnswers := by
  simp [State.emit, h]

/-- The two ways a request to the sink ends (R74). -/
theorem emit_next (h : s.emit w bytes = .next t) :
    (s.sink.answer = .ok ∧ t = (s.advance w).sinkAccepts bytes) ∨
      ∃ n e, s.sink.answer = .fail n e ∧
        t = ((s.drawIp w).sinkAccepts (bytes.take n)).setRun (.errored (.ioFailure e)) := by
  cases ha : s.sink.answer with
  | ok => rw [emit_of_ok ha] at h; exact .inl ⟨rfl, by simpa [eq_comm] using h⟩
  | fail n e => rw [emit_of_fail ha] at h; exact .inr ⟨n, e, rfl, by simpa [eq_comm] using h⟩
  | never => rw [emit_of_never ha] at h; cases h

end Sys2Proof.Machine
end

