-- ==== Sys2Proof/Laws/Exec.lean ====
section
/-! SUPPORT. For each meaning: its result when every check passes, and everything it can be when it answers a next state. -/

namespace Sys2Proof.Machine

variable {s t : State} {a b c l h : Byte} {ra rb rc : Reg}

/-- A register's own byte names it (R44). -/
theorem regOf_eq {r : Byte} {i : Reg} (h : r.toNat = i.val) : regOf r = some i := by
  have hi : r.toNat < Config.nregs := by have := i.isLt; omega
  rw [regOf, dif_pos hi]
  exact congrArg some (Fin.ext h)

/-- `t` is `s` with the error of the check of `i` that failed (R79, R81): the span check, the register check, the data-address
check. -/
abbrev CheckFailed (i : Instr) (s t : State) : Prop :=
  (Config.memSize < s.ip.toNat + i.width ∧ t = s.setRun (.errored .invalidMemoryAccess)) ∨
  ((∃ r ∈ i.regOperands, Config.nregs ≤ r.toNat) ∧ t = s.setRun (.errored .invalidRegisterAccess)) ∨
  ((∃ x, (storeAddress s i = some x ∨ loadAddress s i = some x) ∧ Config.memSize < x + 4) ∧
    t = s.setRun (.errored .invalidMemoryAccess))

/-- A failed check changes only the run state (R81). -/
theorem checkFailed_state {i : Instr} (h : CheckFailed i s t) :
    ∃ kind, (kind = .invalidMemoryAccess ∨ kind = .invalidRegisterAccess) ∧ t = s.setRun (.errored kind) := by
  obtain ⟨-, h⟩ | ⟨-, h⟩ | ⟨-, h⟩ := h
  · exact ⟨_, .inl rfl, h⟩
  · exact ⟨_, .inr rfl, h⟩
  · exact ⟨_, .inl rfl, h⟩

/-! ### Results when every check passes -/

theorem execMoveIf_ok (hx : CanExecute 4 s) (ha : a.toNat = ra.val) (hb : b.toNat = rb.val) (hc : c.toNat = rc.val) :
    execMoveIf a b c s =
      .next (if s.view 4 rc ≠ 0 then (s.advance 4).setReg ra (s.view 4 rb) else s.advance 4) := by
  rw [execMoveIf, handler_of_canExecute hx.1 hx.2, checkReg_of_eq ha, checkReg_of_eq hb, checkReg_of_eq hc]

theorem execLoadimm_ok (hx : CanExecute 4 s) (ha : a.toNat = ra.val) :
    execLoadimm a l h s = .next ((s.advance 4).setReg ra (immediate l h)) := by
  rw [execLoadimm, handler_of_canExecute hx.1 hx.2, checkReg_of_eq ha]

theorem execSub_ok (hx : CanExecute 4 s) (ha : a.toNat = ra.val) (hb : b.toNat = rb.val) (hc : c.toNat = rc.val) :
    execSub a b c s = .next ((s.advance 4).setReg ra (subWrap (s.view 4 rb) (s.view 4 rc))) := by
  rw [execSub, handler_of_canExecute hx.1 hx.2, checkReg_of_eq ha, checkReg_of_eq hb, checkReg_of_eq hc]

theorem execStore_ok (hx : CanExecute 3 s) (ha : a.toNat = ra.val) (hb : b.toNat = rb.val)
    (hr : (s.view 3 ra).toNat + 4 ≤ Config.memSize) :
    execStore a b s =
      .next ((s.advance 3).setMem (s.mem.writeWord (s.view 3 ra).toNat (s.view 3 rb))) := by
  rw [execStore, handler_of_canExecute hx.1 hx.2, checkReg_of_eq ha, checkReg_of_eq hb, checkWordAt_of_inRange hr]

theorem execLoad_ok (hx : CanExecute 3 s) (ha : a.toNat = ra.val) (hb : b.toNat = rb.val)
    (hr : (s.view 3 rb).toNat + 4 ≤ Config.memSize) :
    execLoad a b s = .next ((s.advance 3).setReg ra (s.mem.readWord (s.view 3 rb).toNat)) := by
  rw [execLoad, handler_of_canExecute hx.1 hx.2, checkReg_of_eq ha, checkReg_of_eq hb, checkWordAt_of_inRange hr]

theorem execOut_ok (hx : CanExecute 2 s) (ha : a.toNat = ra.val) :
    execOut a s = s.emit 2 (characterBytes Config.outByteEncoding ((s.view 2 ra).extractLsb' 0 8)) := by
  rw [execOut, handler_of_canExecute hx.1 hx.2, checkReg_of_eq ha]

theorem execExit_ok (hx : CanExecute 1 s) : execExit s = .next ((s.advance 1).setRun .halted) := by
  rw [execExit, handler_of_canExecute hx.1 hx.2]

theorem execOutNumber_ok (hx : CanExecute 2 s) (ha : a.toNat = ra.val) :
    execOutNumber a s = s.emit 2 (decimal (s.view 2 ra).toInt) := by
  rw [execOutNumber, handler_of_canExecute hx.1 hx.2, checkReg_of_eq ha]

/-! ### Everything a next state can be -/

theorem execMoveIf_next (hn : execMoveIf a b c s = .next t) :
    s.run = .running ∧ (CheckFailed (.moveIf a b c) s t ∨
      ∃ ra rb rc : Reg, CanExecute 4 s ∧ a.toNat = ra.val ∧ b.toNat = rb.val ∧ c.toNat = rc.val ∧
        t = if s.view 4 rc ≠ 0 then (s.advance 4).setReg ra (s.view 4 rb) else s.advance 4) := by
  obtain ⟨hr, ⟨hf, ht⟩ | ⟨hf, hn⟩⟩ := handler_next hn
  · exact ⟨hr, .inl (.inl ⟨hf, ht⟩)⟩
  refine ⟨hr, ?_⟩
  obtain ⟨hg, ht⟩ | ⟨ra, ha, hn⟩ := checkReg_next hn
  · exact .inl (.inr (.inl ⟨⟨_, by simp [Instr.regOperands], hg⟩, ht⟩))
  obtain ⟨hg, ht⟩ | ⟨rb, hb, hn⟩ := checkReg_next hn
  · exact .inl (.inr (.inl ⟨⟨_, by simp [Instr.regOperands], hg⟩, ht⟩))
  obtain ⟨hg, ht⟩ | ⟨rc, hc, hn⟩ := checkReg_next hn
  · exact .inl (.inr (.inl ⟨⟨_, by simp [Instr.regOperands], hg⟩, ht⟩))
  cases hn
  exact .inr ⟨ra, rb, rc, ⟨hr, hf⟩, ha, hb, hc, rfl⟩

theorem execLoadimm_next (hn : execLoadimm a l h s = .next t) :
    s.run = .running ∧ (CheckFailed (.loadimm a l h) s t ∨
      ∃ ra : Reg, CanExecute 4 s ∧ a.toNat = ra.val ∧ t = (s.advance 4).setReg ra (immediate l h)) := by
  obtain ⟨hr, ⟨hf, ht⟩ | ⟨hf, hn⟩⟩ := handler_next hn
  · exact ⟨hr, .inl (.inl ⟨hf, ht⟩)⟩
  refine ⟨hr, ?_⟩
  obtain ⟨hg, ht⟩ | ⟨ra, ha, hn⟩ := checkReg_next hn
  · exact .inl (.inr (.inl ⟨⟨_, by simp [Instr.regOperands], hg⟩, ht⟩))
  cases hn
  exact .inr ⟨ra, ⟨hr, hf⟩, ha, rfl⟩

theorem execSub_next (hn : execSub a b c s = .next t) :
    s.run = .running ∧ (CheckFailed (.sub a b c) s t ∨
      ∃ ra rb rc : Reg, CanExecute 4 s ∧ a.toNat = ra.val ∧ b.toNat = rb.val ∧ c.toNat = rc.val ∧
        t = (s.advance 4).setReg ra (subWrap (s.view 4 rb) (s.view 4 rc))) := by
  obtain ⟨hr, ⟨hf, ht⟩ | ⟨hf, hn⟩⟩ := handler_next hn
  · exact ⟨hr, .inl (.inl ⟨hf, ht⟩)⟩
  refine ⟨hr, ?_⟩
  obtain ⟨hg, ht⟩ | ⟨ra, ha, hn⟩ := checkReg_next hn
  · exact .inl (.inr (.inl ⟨⟨_, by simp [Instr.regOperands], hg⟩, ht⟩))
  obtain ⟨hg, ht⟩ | ⟨rb, hb, hn⟩ := checkReg_next hn
  · exact .inl (.inr (.inl ⟨⟨_, by simp [Instr.regOperands], hg⟩, ht⟩))
  obtain ⟨hg, ht⟩ | ⟨rc, hc, hn⟩ := checkReg_next hn
  · exact .inl (.inr (.inl ⟨⟨_, by simp [Instr.regOperands], hg⟩, ht⟩))
  cases hn
  exact .inr ⟨ra, rb, rc, ⟨hr, hf⟩, ha, hb, hc, rfl⟩

theorem execStore_next (hn : execStore a b s = .next t) :
    s.run = .running ∧ (CheckFailed (.store a b) s t ∨
      ∃ ra rb : Reg, CanExecute 3 s ∧ a.toNat = ra.val ∧ b.toNat = rb.val ∧
        (s.view 3 ra).toNat + 4 ≤ Config.memSize ∧
        t = (s.advance 3).setMem (s.mem.writeWord (s.view 3 ra).toNat (s.view 3 rb))) := by
  obtain ⟨hr, ⟨hf, ht⟩ | ⟨hf, hn⟩⟩ := handler_next hn
  · exact ⟨hr, .inl (.inl ⟨hf, ht⟩)⟩
  refine ⟨hr, ?_⟩
  obtain ⟨hg, ht⟩ | ⟨ra, ha, hn⟩ := checkReg_next hn
  · exact .inl (.inr (.inl ⟨⟨_, by simp [Instr.regOperands], hg⟩, ht⟩))
  obtain ⟨hg, ht⟩ | ⟨rb, hb, hn⟩ := checkReg_next hn
  · exact .inl (.inr (.inl ⟨⟨_, by simp [Instr.regOperands], hg⟩, ht⟩))
  obtain ⟨hg, ht⟩ | ⟨hd, hn⟩ := checkWordAt_next hn
  · exact .inl (.inr (.inr ⟨⟨_, .inl (by rw [storeAddress, regOf_eq ha]; rfl), hg⟩, ht⟩))
  cases hn
  exact .inr ⟨ra, rb, ⟨hr, hf⟩, ha, hb, hd, rfl⟩

theorem execLoad_next (hn : execLoad a b s = .next t) :
    s.run = .running ∧ (CheckFailed (.load a b) s t ∨
      ∃ ra rb : Reg, CanExecute 3 s ∧ a.toNat = ra.val ∧ b.toNat = rb.val ∧
        (s.view 3 rb).toNat + 4 ≤ Config.memSize ∧
        t = (s.advance 3).setReg ra (s.mem.readWord (s.view 3 rb).toNat)) := by
  obtain ⟨hr, ⟨hf, ht⟩ | ⟨hf, hn⟩⟩ := handler_next hn
  · exact ⟨hr, .inl (.inl ⟨hf, ht⟩)⟩
  refine ⟨hr, ?_⟩
  obtain ⟨hg, ht⟩ | ⟨ra, ha, hn⟩ := checkReg_next hn
  · exact .inl (.inr (.inl ⟨⟨_, by simp [Instr.regOperands], hg⟩, ht⟩))
  obtain ⟨hg, ht⟩ | ⟨rb, hb, hn⟩ := checkReg_next hn
  · exact .inl (.inr (.inl ⟨⟨_, by simp [Instr.regOperands], hg⟩, ht⟩))
  obtain ⟨hg, ht⟩ | ⟨hd, hn⟩ := checkWordAt_next hn
  · exact .inl (.inr (.inr ⟨⟨_, .inr (by rw [loadAddress, regOf_eq hb]; rfl), hg⟩, ht⟩))
  cases hn
  exact .inr ⟨ra, rb, ⟨hr, hf⟩, ha, hb, hd, rfl⟩

/-- The two ways a request to the sink ends, for an instruction of width `w` writing `bytes` (R74). -/
abbrev SinkAnswered (w : Nat) (bytes : List Byte) (s t : State) : Prop :=
  (s.sink.answer = .ok ∧ t = (s.advance w).sinkAccepts bytes) ∨
    ∃ n e, s.sink.answer = .fail n e ∧
      t = ((s.drawIp w).sinkAccepts (bytes.take n)).setRun (.errored (.ioFailure e))

theorem execOut_next (hn : execOut a s = .next t) :
    s.run = .running ∧ (CheckFailed (.out a) s t ∨
      ∃ ra : Reg, CanExecute 2 s ∧ a.toNat = ra.val ∧
        SinkAnswered 2 (characterBytes Config.outByteEncoding ((s.view 2 ra).extractLsb' 0 8)) s t) := by
  obtain ⟨hr, ⟨hf, ht⟩ | ⟨hf, hn⟩⟩ := handler_next hn
  · exact ⟨hr, .inl (.inl ⟨hf, ht⟩)⟩
  refine ⟨hr, ?_⟩
  obtain ⟨hg, ht⟩ | ⟨ra, ha, hn⟩ := checkReg_next hn
  · exact .inl (.inr (.inl ⟨⟨_, by simp [Instr.regOperands], hg⟩, ht⟩))
  exact .inr ⟨ra, ⟨hr, hf⟩, ha, emit_next hn⟩

theorem execExit_next (hn : execExit s = .next t) :
    s.run = .running ∧ (CheckFailed .exit s t ∨
      (CanExecute 1 s ∧ t = (s.advance 1).setRun .halted)) := by
  obtain ⟨hr, ⟨hf, ht⟩ | ⟨hf, hn⟩⟩ := handler_next hn
  · exact ⟨hr, .inl (.inl ⟨hf, ht⟩)⟩
  cases hn
  exact ⟨hr, .inr ⟨⟨hr, hf⟩, rfl⟩⟩

theorem execOutNumber_next (hn : execOutNumber a s = .next t) :
    s.run = .running ∧ (CheckFailed (.outNumber a) s t ∨
      ∃ ra : Reg, CanExecute 2 s ∧ a.toNat = ra.val ∧
        SinkAnswered 2 (decimal (s.view 2 ra).toInt) s t) := by
  obtain ⟨hr, ⟨hf, ht⟩ | ⟨hf, hn⟩⟩ := handler_next hn
  · exact ⟨hr, .inl (.inl ⟨hf, ht⟩)⟩
  refine ⟨hr, ?_⟩
  obtain ⟨hg, ht⟩ | ⟨ra, ha, hn⟩ := checkReg_next hn
  · exact .inl (.inr (.inl ⟨⟨_, by simp [Instr.regOperands], hg⟩, ht⟩))
  exact .inr ⟨ra, ⟨hr, hf⟩, ha, emit_next hn⟩

end Sys2Proof.Machine
end

