-- ==== Sys2Proof/Laws/PerInstr.lean ====
section
/-! SUPPORT. Facts about every instruction as syntax, one lemma per constructor. -/

namespace Sys2Proof.Laws.EncodedWidth

/-- An encoding has exactly the width the opcode fixes, 1 to 4 bytes (R41), and its first byte selects that opcode (R46). -/
def Statement (i : Instr) : Prop :=
  (encode i).length = i.width ∧ 1 ≤ i.width ∧ i.width ≤ 4 ∧ (encode i).head?.bind Opcode.ofByte = some i.opcode

theorem moveIf (a b c : Byte) : Statement (.moveIf a b c) := ⟨rfl, one_le_width _, width_le_four _, rfl⟩
theorem store (a b : Byte) : Statement (.store a b) := ⟨rfl, one_le_width _, width_le_four _, rfl⟩
theorem load (a b : Byte) : Statement (.load a b) := ⟨rfl, one_le_width _, width_le_four _, rfl⟩
theorem loadimm (a l h : Byte) : Statement (.loadimm a l h) := ⟨rfl, one_le_width _, width_le_four _, rfl⟩
theorem sub (a b c : Byte) : Statement (.sub a b c) := ⟨rfl, one_le_width _, width_le_four _, rfl⟩
theorem out (a : Byte) : Statement (.out a) := ⟨rfl, one_le_width _, width_le_four _, rfl⟩
theorem exit : Statement .exit := ⟨rfl, one_le_width _, width_le_four _, rfl⟩
theorem outNumber (a : Byte) : Statement (.outNumber a) := ⟨rfl, one_le_width _, width_le_four _, rfl⟩

end Sys2Proof.Laws.EncodedWidth
end

