-- ==== Sys2Proof/Laws/Step.lean ====
section
/-! SUPPORT. What fetch and step do, said once (40_sequencer.md R51 to R54), and what they ask of the decoder. -/

namespace Sys2Proof.Machine

variable {s t : State}

/-! ### Fetch -/

theorem fetch_beyond (h : Config.memSize ≤ s.ip.toNat) : s.fetch = .error .invalidMemoryAccess := by
  simp only [State.fetch, if_neg (show ¬ s.ip.toNat < Config.memSize by omega)]

theorem fetch_illegal (h : s.ip.toNat < Config.memSize) (ho : Opcode.ofByte (s.mem.read s.ip.toNat) = none) :
    s.fetch = .error .invalidInstruction := by
  simp only [State.fetch, if_pos h, ho]

theorem fetch_overrun {op : Opcode} (h : s.ip.toNat < Config.memSize)
    (ho : Opcode.ofByte (s.mem.read s.ip.toNat) = some op) (hw : Config.memSize < s.ip.toNat + op.width) :
    s.fetch = .error .invalidMemoryAccess := by
  simp only [State.fetch, if_pos h, ho, if_neg (show ¬ s.ip.toNat + op.width ≤ Config.memSize by omega)]

theorem fetch_fits {op : Opcode} (ho : Opcode.ofByte (s.mem.read s.ip.toNat) = some op)
    (hw : s.ip.toNat + op.width ≤ Config.memSize) :
    s.fetch = .ok (op.build fun k => s.mem.read (s.ip.toNat + k)) := by
  have h : s.ip.toNat < Config.memSize := by have := one_le_width op; omega
  simp only [State.fetch, if_pos h, ho, if_pos hw]

/-- Everything fetch can answer. -/
theorem fetch_cases (s : State) :
    (Config.memSize ≤ s.ip.toNat ∧ s.fetch = .error .invalidMemoryAccess) ∨
    (s.ip.toNat < Config.memSize ∧ Opcode.ofByte (s.mem.read s.ip.toNat) = none ∧
      s.fetch = .error .invalidInstruction) ∨
    ∃ op, s.ip.toNat < Config.memSize ∧ Opcode.ofByte (s.mem.read s.ip.toNat) = some op ∧
      ((Config.memSize < s.ip.toNat + op.width ∧ s.fetch = .error .invalidMemoryAccess) ∨
       (s.ip.toNat + op.width ≤ Config.memSize ∧
        s.fetch = .ok (op.build fun k => s.mem.read (s.ip.toNat + k)))) := by
  by_cases h : s.ip.toNat < Config.memSize
  · cases ho : Opcode.ofByte (s.mem.read s.ip.toNat) with
    | none => exact .inr (.inl ⟨h, rfl, fetch_illegal h ho⟩)
    | some op =>
      refine .inr (.inr ⟨op, h, rfl, ?_⟩)
      by_cases hw : s.ip.toNat + op.width ≤ Config.memSize
      · exact .inr ⟨hw, fetch_fits ho hw⟩
      · exact .inl ⟨by omega, fetch_overrun h ho (by omega)⟩
  · exact .inl ⟨by omega, fetch_beyond (by omega)⟩

/-- A fetched instruction lies within memory, and its opcode byte stands at the IP. -/
theorem fetch_ok {i : Instr} (h : s.fetch = .ok i) :
    s.ip.toNat + i.width ≤ Config.memSize ∧ s.mem.read s.ip.toNat = i.opcode.byte := by
  rcases fetch_cases s with ⟨-, hf⟩ | ⟨-, -, hf⟩ | ⟨op, -, ho, ⟨-, hf⟩ | ⟨hw, hf⟩⟩ <;>
    rw [h] at hf <;> try cases hf
  exact ⟨by simpa [Instr.width] using hw, by simpa using byte_of_ofByte ho⟩

/-- An error of fetch is not an IoFailure. -/
theorem fetch_error {kind : ErrorKind} (h : s.fetch = .error kind) :
    kind = .invalidMemoryAccess ∨ kind = .invalidInstruction := by
  rcases fetch_cases s with ⟨-, hf⟩ | ⟨-, -, hf⟩ | ⟨op, -, -, ⟨-, hf⟩ | ⟨-, hf⟩⟩ <;>
    rw [h] at hf <;> cases hf <;> simp

/-! ### Decode at the IP -/

/-- What decode answers when it answers an instruction. -/
theorem decode_ok {l : List Byte} {i : Instr} {rest : List Byte} (h : decode l = .ok (i, rest)) :
    ∃ b tail op, l = b :: tail ∧ Opcode.ofByte b = some op ∧ op.width ≤ tail.length + 1 ∧
      i = op.build (fun k => tail.getD (k - 1) 0) ∧ rest = tail.drop (op.width - 1) := by
  match l with
  | [] => simp [decode] at h
  | b :: tail =>
    simp only [decode] at h
    split at h
    · cases h
    · next op ho =>
      split at h
      · cases h
      · cases h
        exact ⟨b, tail, op, rfl, ho, by omega, rfl, rfl⟩

/-- Decoding the bytes at the IP is what fetch does. -/
theorem fetch_of_decode {i : Instr} {rest : List Byte} (h : decode s.bytesAtIp = .ok (i, rest)) :
    s.fetch = .ok i := by
  obtain ⟨b, tail, op, hl, ho, hw, rfl, -⟩ := decode_ok h
  have hlen : tail.length + 1 = Config.memSize - s.ip.toNat := by
    have := congrArg List.length hl
    simpa [State.bytesAtIp, eq_comm] using this
  have hget : ∀ k (hk : k < (b :: tail).length), (b :: tail)[k] = s.mem.read (s.ip.toNat + k) := by
    intro k hk
    have hk' : k < s.bytesAtIp.length := by rw [hl]; exact hk
    have := getElem_readBytes s.mem s.ip.toNat (Config.memSize - s.ip.toNat) (k := k) hk'
    simp only [← hl]
    exact this
  have hb : b = s.mem.read s.ip.toNat := hget 0 (by simp)
  rw [hb] at ho
  rw [fetch_fits ho (by omega)]
  congr 1
  apply build_congr
  intro k hk1 hk2
  have hk : k - 1 < tail.length := by omega
  have := hget k (by simp only [List.length_cons]; omega)
  rw [← this]
  obtain ⟨j, rfl⟩ : ∃ j, k = j + 1 := ⟨k - 1, by omega⟩
  have hj : j < tail.length := by simpa using hk
  simp [List.getD_eq_getElem?_getD, List.getElem?_eq_getElem hj]

/-- What fetch answers, the decoder reads from the bytes at the IP. -/
theorem decode_of_fetch {i : Instr} (h : s.fetch = .ok i) : ∃ rest, decode s.bytesAtIp = .ok (i, rest) := by
  obtain ⟨hw, hb⟩ := fetch_ok h
  have hpos := one_le_width i.opcode
  rw [Instr.width] at hw
  obtain ⟨n, hn⟩ : ∃ n, Config.memSize - s.ip.toNat = n + 1 := ⟨Config.memSize - s.ip.toNat - 1, by omega⟩
  have hl : s.bytesAtIp = i.opcode.byte :: s.mem.readBytes (s.ip.toNat + 1) n := by
    rw [State.bytesAtIp, hn, Memory.readBytes, hb]
  have hlen : ¬ (s.mem.readBytes (s.ip.toNat + 1) n).length + 1 < i.opcode.width := by
    rw [length_readBytes]; omega
  have hd : decode s.bytesAtIp = .ok (i.opcode.build fun k => (s.mem.readBytes (s.ip.toNat + 1) n).getD (k - 1) 0,
      (s.mem.readBytes (s.ip.toNat + 1) n).drop (i.opcode.width - 1)) := by
    rw [hl, decode, ofByte_byte]
    simp only [hlen, if_false]
  have hi := fetch_of_decode hd
  rw [h] at hi
  exact ⟨_, hd.trans (by rw [← Except.ok.inj hi])⟩

/-! ### Step -/

theorem step_of_not_running (h : s.run ≠ .running) : step s = .refused .stepOutsideRunning :=
  whenRunning_of_not_running h

theorem step_of_fetch_ok {i : Instr} (hr : s.run = .running) (h : s.fetch = .ok i) : step s = exec i s := by
  rw [step, whenRunning_of_running hr, h]

theorem step_of_fetch_error {kind : ErrorKind} (hr : s.run = .running) (h : s.fetch = .error kind) :
    step s = .next (s.setRun (.errored kind)) := by
  rw [step, whenRunning_of_running hr, h]; rfl

/-- Everything a step that answers a next state can be. -/
theorem step_next (h : step s = .next t) :
    s.run = .running ∧
      ((∃ kind, s.fetch = .error kind ∧ t = s.setRun (.errored kind)) ∨
        ∃ i, s.fetch = .ok i ∧ exec i s = .next t) := by
  obtain ⟨hr, h⟩ := whenRunning_next h
  refine ⟨hr, ?_⟩
  cases hf : s.fetch with
  | error kind => rw [hf] at h; exact .inl ⟨kind, rfl, raise_next h⟩
  | ok i => rw [hf] at h; exact .inr ⟨i, rfl, h⟩

end Sys2Proof.Machine
end

