-- ==== Sys2Proof/Tests/Slice0.lean ====
section
/-! SUPPORT. Tests. Expected results come from spec/: the formats of 30_encoding.md and the vectors of 95_test_vectors.md, whose
identifiers stand in the comments. The second part shows, for each statement with hypotheses, states that meet them. -/

namespace Sys2Proof.Tests

open Sys2Proof.Machine

/-- A machine in Running with the given IP, registers and bytes at the IP. -/
def machine (ip : Word) (regs : List (Reg × Word)) (code : List Byte) : State :=
  let s := regs.foldl (fun s p => s.setReg p.1 p.2) (State.reset.setReg 0 ip)
  s.setMem (s.mem.writeBytes ip.toNat code)

/-- More bytes of memory. -/
def withBytes (s : State) (a : Nat) (bytes : List Byte) : State := s.setMem (s.mem.writeBytes a bytes)

/-- The sink's answer to the next request. -/
def withAnswer (s : State) (a : SinkAnswer) : State := { s with sink := ⟨[a], .ok⟩ }

/-- The next state of a step, if there is one. -/
def after (r : Result) : Option State :=
  match r with
  | .next t => some t
  | .fault _ => none
  | .refused _ => none

/-- Some fields of the state a step leads to. -/
def seen {α : Type} (r : Result) (f : State → α) : Option α := (after r).map f

/-! ### WellFormed: an ill-formed term for each check -/

theorem test_wellFormed_refuses_moveIf_a : (Instr.moveIf 16 2 3).wellFormed = false := by decide
theorem test_wellFormed_refuses_moveIf_b : (Instr.moveIf 1 16 3).wellFormed = false := by decide
theorem test_wellFormed_refuses_moveIf_c : (Instr.moveIf 1 2 255).wellFormed = false := by decide
theorem test_wellFormed_refuses_store_a : (Instr.store 16 2).wellFormed = false := by decide
theorem test_wellFormed_refuses_store_b : (Instr.store 1 16).wellFormed = false := by decide
theorem test_wellFormed_refuses_load_a : (Instr.load 16 2).wellFormed = false := by decide
theorem test_wellFormed_refuses_load_b : (Instr.load 1 16).wellFormed = false := by decide
theorem test_wellFormed_refuses_loadimm_a : (Instr.loadimm 16 0 0).wellFormed = false := by decide
theorem test_wellFormed_refuses_sub_a : (Instr.sub 16 2 3).wellFormed = false := by decide
theorem test_wellFormed_refuses_sub_b : (Instr.sub 1 16 3).wellFormed = false := by decide
theorem test_wellFormed_refuses_sub_c : (Instr.sub 1 2 16).wellFormed = false := by decide
theorem test_wellFormed_refuses_out_a : (Instr.out 16).wellFormed = false := by decide
theorem test_wellFormed_refuses_outNumber_a : (Instr.outNumber 16).wellFormed = false := by decide
theorem test_wellFormed_accepts_r15_and_raw_bytes : (Instr.loadimm 15 0xFF 0xFF).wellFormed = true := by decide

/-! ### Decode: words written out from the formats of R43 -/

theorem test_decode_moveIf : decode [0x01, 0x01, 0x02, 0x03] = .ok (.moveIf 1 2 3, []) := by decide
theorem test_decode_store : decode [0x02, 0x01, 0x02] = .ok (.store 1 2, []) := by decide
theorem test_decode_load : decode [0x03, 0x03, 0x02] = .ok (.load 3 2, []) := by decide
theorem test_decode_loadimm : decode [0x04, 0x01, 0x34, 0x12] = .ok (.loadimm 1 0x34 0x12, []) := by decide
theorem test_decode_sub : decode [0x05, 0x03, 0x01, 0x02] = .ok (.sub 3 1 2, []) := by decide
theorem test_decode_out : decode [0x06, 0x01] = .ok (.out 1, []) := by decide
theorem test_decode_exit : decode [0x07, 0xFF, 0xFF] = .ok (.exit, [0xFF, 0xFF]) := by decide
theorem test_decode_outNumber : decode [0x08, 0x03] = .ok (.outNumber 3, []) := by decide
theorem test_decode_zero_is_illegal : decode [0x00] = .error (.illegalOpcode 0x00) := by decide
theorem test_decode_nine_is_illegal : decode [0x09, 0x01] = .error (.illegalOpcode 0x09) := by decide
theorem test_decode_short_sub : decode [0x05, 0x01, 0x02] = .error (.truncated .sub) := by decide
theorem test_decodeTableWord_loadimm : decodeTableWord 32 0x12340104 = some (.loadimm 1 0x34 0x12) := by decide

/-! ### One step of each instruction -/

/-- M3: a condition of 0x80000000 counts as true. -/
theorem test_moveIf_high_bit_condition :
    seen (step (machine 0 [(2, 5), (3, 0x80000000)] [0x01, 1, 2, 3])) (fun t => (t.reg 1, t.ip)) = some (5, 4) := by decide
/-- M8: `c = 0` tests the address of the next instruction, so the move happens. -/
theorem test_moveIf_tests_advanced_ip :
    seen (step (machine 0 [(2, 9)] [0x01, 1, 2, 0])) (fun t => t.reg 1) = some 9 := by decide
/-- T6: no alignment; 04 03 02 01 at 0x101. -/
theorem test_store_unaligned :
    seen (step (machine 0 [(1, 0x101), (2, 0x01020304)] [0x02, 1, 2])) (fun t => (t.mem.readBytes 0x101 4, t.ip)) =
      some ([4, 3, 2, 1], 3) := by decide
/-- T5: the sum 0xFFFFFFFD + 4 does not wrap. -/
theorem test_store_sum_does_not_wrap :
    seen (step (machine 0 [(1, 0xFFFFFFFD)] [0x02, 1, 2])) (fun t => (t.run, t.ip)) =
      some (.errored .invalidMemoryAccess, 0) := by decide
/-- LD2: the last word of memory. -/
theorem test_load_last_word :
    seen (step (withBytes (machine 0 [(2, 4092)] [0x03, 1, 2]) 4092 [1, 0, 0, 0x80])) (fun t => t.reg 1) =
      some 0x80000001 := by decide
/-- LD6: `b = 0` reads the bytes right after the instruction. -/
theorem test_load_reads_at_advanced_ip :
    seen (step (machine 0 [] [0x03, 1, 0, 0xAA, 0xBB, 0xCC, 0xDD])) (fun t => (t.reg 1, t.ip)) =
      some (0xDDCCBBAA, 3) := by decide
/-- LI2: sign extension from bit 15. -/
theorem test_loadimm_sign_extends :
    seen (step (machine 0 [] [0x04, 1, 0x00, 0x80])) (fun t => t.reg 1) = some 0xFFFF8000 := by decide
/-- LI7: a write to register 0 is a jump, not a jump plus 4. -/
theorem test_loadimm_to_r0_jumps :
    seen (step (machine 0 [] [0x04, 0, 0x10, 0x00])) (fun t => t.ip) = some 0x10 := by decide
/-- B4: 0x7FFFFFFF - 0xFFFFFFFF. -/
theorem test_sub_wraps :
    seen (step (machine 0 [(2, 0x7FFFFFFF), (3, 0xFFFFFFFF)] [0x05, 1, 2, 3])) (fun t => t.reg 1) =
      some 0x80000000 := by decide
/-- B7: `sub r0, r0, r2` at 20 with r2 = 8 jumps to 16. -/
theorem test_sub_relative_jump :
    seen (step (machine 20 [(2, 8)] [0x05, 0, 0, 2])) (fun t => t.ip) = some 16 := by decide
/-- O2: only the low byte is written. -/
theorem test_out_low_byte :
    seen (step (machine 0 [(1, 0x141)] [0x06, 1])) (fun t => (t.accepted, t.ip)) = some ([0x41], 2) := by decide
/-- O9: a failing sink; the fields the spec fixes. -/
theorem test_out_failing_sink :
    seen (step (withAnswer (machine 0 [(1, 0x41)] [0x06, 1]) (.fail 0 ⟨7⟩))) (fun t => (t.run, t.accepted, t.reg 1)) =
      some (.errored (.ioFailure ⟨7⟩), [], 0x41) := by decide
/-- E3: `exit` at 4095. -/
theorem test_exit_at_top :
    seen (step (machine 4095 [] [0x07])) (fun t => (t.run, t.ip)) = some (.halted, 4096) := by decide
/-- ON6: the longest number. -/
theorem test_outNumber_most_negative :
    seen (step (machine 0 [(1, 0x80000000)] [0x08, 1])) (fun t => t.accepted) =
      some [0x2D, 0x32, 0x31, 0x34, 0x37, 0x34, 0x38, 0x33, 0x36, 0x34, 0x38] := by decide
/-- ON2 and ON8: zero, and no leading zero. -/
theorem test_outNumber_zero_and_thousand :
    decimal 0 = [0x30] ∧ decimal 1000 = [0x31, 0x30, 0x30, 0x30] := by decide
/-- O5 and O6: both values of OUT_BYTE_ENCODING. -/
theorem test_characterBytes_high :
    characterBytes .raw 0xFF = [0xFF] ∧ characterBytes .utf8 0xFF = [0xC3, 0xBF] ∧
    characterBytes .utf8 0x80 = [0xC2, 0x80] := by decide

/-! ### The sequencer and the host -/

/-- S9: the span check comes before the register check. -/
theorem test_span_before_register :
    seen (step (machine 4094 [] [0x01, 0x10])) (fun t => t.run) = some (.errored .invalidMemoryAccess) := by decide
/-- S12: the register check comes before the data-address check. -/
theorem test_register_before_data_address :
    seen (step (machine 0 [(1, 4093)] [0x03, 0x10, 0x01])) (fun t => t.run) =
      some (.errored .invalidRegisterAccess) := by decide
/-- S1. -/
theorem test_fetch_at_capacity :
    seen (step (machine 4096 [] [])) (fun t => (t.run, t.ip)) = some (.errored .invalidMemoryAccess, 4096) := by decide
/-- H6: the empty image. -/
theorem test_empty_image_first_step :
    seen (step State.reset) (fun t => (t.run, t.ip)) = some (.errored .invalidInstruction, 0) := by decide
/-- W11: the image `07`. -/
theorem test_construct_exit :
    (construct [0x07]).toOption.bind (fun s => seen (step s) (fun t => (t.run, t.ip))) = some (.halted, 1) := by decide
/-- H1. -/
theorem test_setReg_16_fails : hostSetReg 16 5 State.reset = .error .invalidRegisterAccess := by decide
/-- R48's example, and W9's image. -/
theorem test_assemble_scenario_a :
    assembleText "loadimm r1,'A',0; out r1; exit" = some [0x04, 1, 0x41, 0, 0x06, 1, 0x07] := by decide
/-- R48: a register is written `r0` to `r15`. -/
theorem test_assemble_register_form : readReg ['r', '0', '1'] = none ∧ readReg ['r', '0'] = some 0 ∧
    readReg ['r', '1', '5'] = some 15 ∧ readReg ['r', '1', '6'] = none := by decide
/-- P4's loop and its label. -/
theorem test_assemble_label :
    (readAssembly "out_number r1\nloop: sub r1, r1, r2\nmove_if r0, r3, r1".toList).map
      (fun items => (assembleItems items, asmLabels 12 items)) =
    some (some [0x08, 1, 0x05, 1, 1, 2, 0x01, 0, 3, 1], [("loop".toList, 14)]) := by decide
/-- `#v` with a negative value, and `.byte`. -/
theorem test_assemble_value_and_bytes :
    assembleText "loadimm r15, #-2\n.byte 0x0A, ';', 7" = some [0x04, 15, 0xFE, 0xFF, 0x0A, 0x3B, 7] := by decide

/-! ### Hypotheses met: encoding, construction, host -/

theorem witness_IllegalEncodingsRaise_opcode :
    (machine 4095 [] [0x09]).run = .running ∧ (machine 4095 [] [0x09]).ip.toNat < 4096 ∧
    0x09 ≤ ((machine 4095 [] [0x09]).mem.read (machine 4095 [] [0x09]).ip.toNat).toNat ∧
    (machine 4095 [] []).mem.read (machine 4095 [] []).ip.toNat = 0x00 := by decide

theorem witness_IllegalEncodingsRaise_register :
    (machine 4094 [] [0x06, 0x10]).run = .running ∧
    decode (machine 4094 [] [0x06, 0x10]).bytesAtIp = .ok (.out 0x10, []) ∧
    ∃ r ∈ (Instr.out 0x10).regOperands, 16 ≤ r.toNat := by decide

theorem witness_ImmediateIsTheSignExtendedPair :
    (0x7F : Byte).toNat < 0x80 ∧ 0x80 ≤ (0x80 : Byte).toNat := by decide

theorem witness_LoadimmValueFormLoadsTheValue :
    ((-32768 : Int) ≤ -32768 ∧ (-32768 : Int) ≤ 65535) ∧ ((-32768 : Int) ≤ 65535 ∧ (65535 : Int) ≤ 65535) ∧
    (-32769 : Int) < -32768 ∧ (65535 : Int) < 65536 := by decide

theorem witness_ConstructGivesTheResetState :
    (List.replicate 4096 (7 : Byte)).length ≤ 4096 ∧ ([7] : List Byte)[0]? = some 7 ∧ ([7] : List Byte).length ≤ 4095 :=
  ⟨by rw [List.length_replicate], rfl, by decide⟩

theorem witness_OversizedImagesAreRefused :
    4096 < (List.replicate 4097 (0 : Byte)).length ∧ (List.replicate 4095 (0 : Byte)).length = 4095 :=
  ⟨by rw [List.length_replicate]; decide, List.length_replicate⟩

theorem witness_SetRegWritesOneRegister :
    16 ≤ 16 ∧ 15 = (15 : Reg).val ∧ (State.reset.setRun .halted).run ≠ .running := by decide

theorem witness_HostOperationsKeepTheMemoryInvariant :
    (∃ s, construct [0x07] = .ok s) ∧ MemoryInv State.reset ∧ ∃ t, hostSetReg 15 1 State.reset = .ok t :=
  ⟨⟨_, rfl⟩, by decide, ⟨_, rfl⟩⟩

theorem witness_EveryStepKeepsTheMemoryInvariant :
    MemoryInv (machine 0 [(1, 4092)] [0x02, 1, 1]) ∧ ∃ t, step (machine 0 [(1, 4092)] [0x02, 1, 1]) = .next t :=
  ⟨by decide, _, rfl⟩

theorem witness_EqualBytesMakeEqualMemories :
    ∃ m n : Memory, m.wf ∧ n.wf ∧ ∀ a, a < 4096 → m.read a = n.read a :=
  ⟨((⟨[]⟩ : Memory).write 0 1).write 4095 2, ((⟨[]⟩ : Memory).write 4095 2).write 0 1, by decide, by decide, fun _ _ => rfl⟩

/-! ### Hypotheses met: the step -/

theorem witness_StepRunsTheDecodedInstruction :
    (machine 4092 [] [0x05, 1, 2, 3]).run = .running ∧
    decode (machine 4092 [] [0x05, 1, 2, 3]).bytesAtIp = .ok (.sub 1 2 3, []) := by decide

theorem witness_FetchBeyondMemoryRaises :
    (machine 4096 [] []).run = .running ∧ 4096 ≤ ((machine 4096 [] []).reg 0).toNat := by decide

/-- A machine whose opcode `b` stands so that an instruction of width `w` ends on the last byte of memory. -/
abbrev AtTheTop (b : Byte) (w : Nat) : Prop :=
  let s := machine (BitVec.ofNat 32 (4096 - w)) [] [b]
  s.run = .running ∧ s.ip.toNat = 4096 - w ∧ 4096 - w < 4096 ∧ s.mem.read (4096 - w + 0) = b ∧ 4096 - w + w ≤ 4096

theorem witness_DispatchFollowsTheOpcodeMap :
    AtTheTop 1 4 ∧ AtTheTop 2 3 ∧ AtTheTop 3 3 ∧ AtTheTop 4 4 ∧ AtTheTop 5 4 ∧ AtTheTop 6 2 ∧ AtTheTop 7 1 ∧
    AtTheTop 8 2 ∧ AtTheTop 0 1 ∧ AtTheTop 9 1 := by decide

theorem witness_SpanCheckIsExact :
    (machine 4093 [] [0x05]).run = .running ∧ (machine 4093 [] [0x05]).ip.toNat < 4096 ∧
    (machine 4093 [] [0x05]).mem.read (machine 4093 [] [0x05]).ip.toNat = Opcode.sub.byte ∧
    4096 < (machine 4093 [] [0x05]).ip.toNat + Opcode.sub.width ∧
    (machine 4092 [] [0x05]).mem.read (machine 4092 [] [0x05]).ip.toNat = Opcode.sub.byte ∧
    (machine 4092 [] [0x05]).ip.toNat + Opcode.sub.width ≤ 4096 := by decide

theorem witness_EveryRegisterOperandIsChecked :
    CanExecute (Instr.moveIf 1 16 3).width (machine 4092 [] []) ∧
    (∃ r ∈ (Instr.moveIf 1 16 3).regOperands, 16 ≤ r.toNat) ∧
    (∀ r ∈ (Instr.moveIf 1 15 3).regOperands, r.toNat < 16) ∧
    (after (exec (.moveIf 1 15 3) (machine 4092 [] []))).isSome = true := by decide

theorem witness_ErrorsAreReportedInOrder_before_decode :
    4096 ≤ (machine 4096 [] []).ip.toNat ∧
    ((machine 4095 [] [0x09]).ip.toNat < 4096 ∧ Opcode.ofByte ((machine 4095 [] [0x09]).mem.read 4095) = none) ∧
    ((machine 4094 [] [0x01, 0x10]).ip.toNat < 4096 ∧
      Opcode.ofByte ((machine 4094 [] [0x01, 0x10]).mem.read 4094) = some .moveIf ∧
      4096 < (machine 4094 [] [0x01, 0x10]).ip.toNat + Opcode.moveIf.width) := by decide

theorem witness_ErrorsAreReportedInOrder_after_decode :
    (decode (machine 4093 [(1, 4093)] [0x03, 0x10, 1]).bytesAtIp = .ok (.load 0x10 1, []) ∧
      (Instr.load 0x10 1).wellFormed = false) ∧
    (decode (machine 4093 [(1, 4093)] [0x03, 2, 1]).bytesAtIp = .ok (.load 2 1, []) ∧
      (Instr.load 2 1).wellFormed = true ∧
      loadAddress (machine 4093 [(1, 4093)] [0x03, 2, 1]) (.load 2 1) = some 4093 ∧ 4096 < 4093 + 4) ∧
    (decode (withAnswer (machine 4094 [] [0x06, 1]) (.fail 1 ⟨0⟩)).bytesAtIp = .ok (.out 1, []) ∧
      (Instr.out 1).wellFormed = true ∧ usesSink (.out 1) = true ∧
      (withAnswer (machine 4094 [] [0x06, 1]) (.fail 1 ⟨0⟩)).sink.answer = .fail 1 ⟨0⟩) ∧
    (decode (machine 4094 [] [0x06, 1]).bytesAtIp = .ok (.out 1, []) ∧
      storeAddress (machine 4094 [] [0x06, 1]) (.out 1) = none ∧
      loadAddress (machine 4094 [] [0x06, 1]) (.out 1) = none ∧ (machine 4094 [] [0x06, 1]).sink.answer = .ok) := by
  decide

theorem witness_ErrorsChangeOnlyTheRunState :
    seen (step (machine 4096 [] [])) (fun t => t.run) = some (.errored .invalidMemoryAccess) ∧
    seen (step (machine 0 [] [0x06, 0x10])) (fun t => t.run) = some (.errored .invalidRegisterAccess) ∧
    seen (step State.reset) (fun t => t.run) = some (.errored .invalidInstruction) ∧
    seen (step (withAnswer (machine 0 [] [0x06, 1]) (.fail 1 ⟨5⟩))) (fun t => t.run) =
      some (.errored (.ioFailure ⟨5⟩)) ∧
    seen (step (withAnswer (machine 0 [] [0x08, 15]) (.fail 0 ⟨6⟩))) (fun t => t.run) =
      some (.errored (.ioFailure ⟨6⟩)) := by decide

theorem witness_NoStepOutsideRunning :
    (State.reset.setRun .halted).run ≠ .running ∧
    (State.reset.setRun (.errored .invalidInstruction)).run ≠ .running := by decide

theorem witness_StepResultsMatchRunStates :
    (∃ t, step (machine 4095 [] [0x07]) = .next t) ∧ (∃ t, step (machine 4094 [] [0x06, 1]) = .next t) ∧
    ∃ t, step State.reset = .next t := ⟨⟨_, rfl⟩, ⟨_, rfl⟩, ⟨_, rfl⟩⟩

theorem witness_StepsEndUnlessTheSinkNeverAnswers :
    State.reset.run = .running ∧ (withAnswer (machine 0 [] [0x08, 1]) .never).run = .running := by decide

theorem witness_EveryInstructionKeepsItsFrame :
    (∃ t, exec (.store 1 1) (machine 0 [(1, 4092)] []) = .next t) ∧
    storeAddress (machine 0 [(1, 4092)] []) (.store 1 1) = some 4092 ∧
    (∃ t, exec (.sub 1 2 3) State.reset = .next t) ∧ storeAddress State.reset (.sub 1 2 3) = none ∧
    usesSink (.sub 1 2 3) = false ∧ destination (.sub 1 2 3) ≠ some 4 ∧
    ∃ t, exec (.out 1) State.reset = .next t := ⟨⟨_, rfl⟩, by decide, ⟨_, rfl⟩, by decide, by decide, by decide, ⟨_, rfl⟩⟩

theorem witness_IpAdvancesByTheWidth :
    decode (machine 4092 [] [0x05, 1, 2, 3]).bytesAtIp = .ok (.sub 1 2 3, []) ∧
    seen (step (machine 4092 [] [0x05, 1, 2, 3])) (fun t => t.run) = some .running ∧
    destination (.sub 1 2 3) ≠ some 0 := by decide

theorem witness_OperandViewIsTheAdvancedState : (machine 4092 [] []).ip.toNat + 4 ≤ 4096 ∧ (1 : Reg) ≠ 0 := by decide

theorem witness_WellFormedInstructionsComplete :
    CanExecute 3 (machine 4093 [(1, 4092)] []) ∧ (Instr.store 1 2).wellFormed = true ∧
    storeAddress (machine 4093 [(1, 4092)] []) (.store 1 2) = some 4092 ∧
    loadAddress (machine 4093 [(1, 4092)] []) (.store 1 2) = none ∧
    CanExecute 2 (machine 4094 [] []) ∧ (Instr.outNumber 1).wellFormed = true ∧
    (machine 4094 [] []).sink.answer = .ok := by decide

theorem witness_RunsComposeAndEndOnce :
    (machine 0 [] [0x04, 1, 5, 0, 0x07]).run = .running ∧
    seen (runFor 1 (machine 0 [] [0x04, 1, 5, 0, 0x07])) (fun t => t.run) = some .running ∧
    seen (runFor 2 (machine 0 [] [0x04, 1, 5, 0, 0x07])) (fun t => t.run) = some .halted := by decide

theorem witness_PlacedInstructionIsTheNextOneRun :
    MemoryInv (machine 4092 [] [1, 2, 3, 4]) ∧ (machine 4092 [] [1, 2, 3, 4]).run = .running ∧
    (machine 4092 [] [1, 2, 3, 4]).ip.toNat + 4 ≤ 4096 := by decide

/-! ### Hypotheses met: the instructions -/

theorem witness_MoveIfFollowsItsRule :
    ((machine 4093 [] []).run = .running ∧ 4096 < (machine 4093 [] []).ip.toNat + 4) ∧
    CanExecute 4 (machine 4092 [(3, 1)] []) ∧
    (16 ≤ (16 : Byte).toNat ∨ 16 ≤ (2 : Byte).toNat ∨ 16 ≤ (3 : Byte).toNat) ∧
    (machine 4092 [(3, 1)] []).view 4 3 ≠ 0 ∧ (1 : Reg) ≠ 0 ∧ (machine 4092 [(3, 1)] []).view 4 2 = 0 := by decide

theorem witness_LoadimmFollowsItsRule :
    ((machine 4093 [] []).run = .running ∧ 4096 < (machine 4093 [] []).ip.toNat + 4) ∧
    CanExecute 4 (machine 4092 [] []) ∧ 16 ≤ (16 : Byte).toNat ∧ (15 : Reg) ≠ 0 := by decide

theorem witness_SubFollowsItsRule :
    ((machine 4093 [] []).run = .running ∧ 4096 < (machine 4093 [] []).ip.toNat + 4) ∧
    CanExecute 4 (machine 4092 [] []) ∧
    (16 ≤ (1 : Byte).toNat ∨ 16 ≤ (2 : Byte).toNat ∨ 16 ≤ (255 : Byte).toNat) ∧ (15 : Reg) ≠ 0 := by decide

theorem witness_SubtractionIsModuloTwoToThe32 :
    (1 : Word).toNat ≤ (1 : Word).toNat ∧ (0 : Word).toNat < (0xFFFFFFFF : Word).toNat := by decide

theorem witness_RegisterZeroIdiomsTransferControl :
    CanExecute 4 (machine 4092 [(2, 9)] []) ∧ 0x80 ≤ (0x80 : Byte).toNat ∧ (3 : Reg) ≠ 0 ∧ (2 : Reg) ≠ 0 ∧
    (machine 4092 [(2, 9)] []).reg 2 ≠ 0 ∧ (machine 4092 [(2, 9)] []).reg 3 = 0 ∧
    CanExecute 3 (machine 4093 [(2, 4092)] []) ∧ ((machine 4093 [(2, 4092)] []).reg 2).toNat + 4 ≤ 4096 := by decide

theorem witness_WordsAreLittleEndianAndReadBack :
    ((⟨[]⟩ : Memory).write 4095 7).wf ∧ 4092 + 4 ≤ 4096 ∧ 3 < 4 ∧ (4091 < 4092 ∨ 4092 + 4 ≤ 4091) ∧
    (4096 < 4092 ∨ 4092 + 4 ≤ 4096) := by decide

theorem witness_DataAddressRangeIsExact :
    CanExecute 3 (machine 4093 [(1, 4092), (2, 4093)] []) ∧
    ((machine 4093 [(1, 4092), (2, 4093)] []).view 3 1).toNat + 4 ≤ 4096 ∧
    4096 < ((machine 4093 [(1, 4092), (2, 4093)] []).view 3 2).toNat + 4 := by decide

theorem witness_StoreFollowsItsRule :
    ((machine 4094 [] []).run = .running ∧ 4096 < (machine 4094 [] []).ip.toNat + 3) ∧
    CanExecute 3 (machine 4093 [(1, 4092), (2, 0xFFFFFFFD)] []) ∧ (16 ≤ (1 : Byte).toNat ∨ 16 ≤ (16 : Byte).toNat) ∧
    4096 < ((machine 4093 [(1, 4092), (2, 0xFFFFFFFD)] []).view 3 2).toNat + 4 ∧
    MemoryInv (machine 4093 [(1, 4092), (2, 0xFFFFFFFD)] []) ∧
    ((machine 4093 [(1, 4092), (2, 0xFFFFFFFD)] []).view 3 1).toNat + 4 ≤ 4096 := by decide

theorem witness_LoadFollowsItsRule :
    ((machine 4094 [] []).run = .running ∧ 4096 < (machine 4094 [] []).ip.toNat + 3) ∧
    CanExecute 3 (machine 4093 [(1, 4092), (2, 4093)] []) ∧ (16 ≤ (16 : Byte).toNat ∨ 16 ≤ (1 : Byte).toNat) ∧
    4096 < ((machine 4093 [(1, 4092), (2, 4093)] []).view 3 2).toNat + 4 ∧
    ((machine 4093 [(1, 4092), (2, 4093)] []).view 3 1).toNat + 4 ≤ 4096 ∧ (15 : Reg) ≠ 0 := by decide

theorem witness_StoreThenLoadRoundTrips :
    CanExecute 6 (machine 4090 [(1, 4092), (2, 0xCAFEBABE)] []) ∧
    MemoryInv (machine 4090 [(1, 4092), (2, 0xCAFEBABE)] []) ∧ (1 : Reg) ≠ 0 ∧
    ((machine 4090 [(1, 4092), (2, 0xCAFEBABE)] []).reg 1).toNat + 4 ≤ 4096 := by decide

theorem witness_StoresAreSeenByTheNextFetch :
    CanExecute 3 (machine 0 [(1, 0), (2, 0x07000000)] []) ∧ MemoryInv (machine 0 [(1, 0), (2, 0x07000000)] []) ∧
    ((machine 0 [(1, 0), (2, 0x07000000)] []).view 3 1).toNat + 4 ≤ 4096 ∧
    (machine 0 [(1, 0), (2, 0x07000000)] []).ip.toNat + 3 =
      ((machine 0 [(1, 0), (2, 0x07000000)] []).view 3 1).toNat + 3 ∧
    ((machine 0 [(1, 0), (2, 0x07000000)] []).view 3 2).toNat / 256 ^ 3 % 256 = 7 ∧
    ((machine 0 [(1, 0), (2, 0x07000000)] []).view 3 3).toNat / 256 ^ 3 % 256 = 0 := by decide

theorem witness_EmitFollowsTheSinkPort :
    CanExecute 2 (machine 4094 [] []) ∧ (machine 4094 [] []).sink.answer = .ok ∧
    CanExecute 2 (withAnswer (machine 4094 [] []) (.fail 0 ⟨1⟩)) ∧
    (withAnswer (machine 4094 [] []) (.fail 0 ⟨1⟩)).sink.answer = .fail 0 ⟨1⟩ ∧
    CanExecute 2 (withAnswer (machine 4094 [] []) .never) ∧
    (withAnswer (machine 4094 [] []) .never).sink.answer = .never ∧
    (after (exec .exit (machine 4095 [] []))).isSome = true ∧
    (after (exec (.outNumber 1) (machine 4094 [] []))).isSome = true ∧ CanExecute (Instr.outNumber 1).width (machine 4094 [] []) ∧
    (Instr.outNumber 1).wellFormed = true ∧ usesSink (.outNumber 1) = true := by decide

theorem witness_OutFollowsItsRule :
    ((machine 4095 [] []).run = .running ∧ 4096 < (machine 4095 [] []).ip.toNat + 2) ∧
    CanExecute 2 (machine 4094 [(1, 0x17F), (2, 0x180)] []) ∧ 16 ≤ (16 : Byte).toNat ∧
    0x7F = ((machine 4094 [(1, 0x17F), (2, 0x180)] []).view 2 1).toNat % 256 ∧
    0x80 = ((machine 4094 [(1, 0x17F), (2, 0x180)] []).view 2 2).toNat % 256 ∧
    (machine 4094 [(1, 0x17F), (2, 0x180)] []).sink.answer = .ok ∧
    (withAnswer (machine 4094 [] []) (.fail 2 ⟨1⟩)).sink.answer = .fail 2 ⟨1⟩ := by decide

theorem witness_ExitFollowsItsRule : (machine 4095 [] []).run = .running ∧ (machine 4095 [] []).ip.toNat < 4096 := by
  decide

theorem witness_OutNumberFollowsItsRule :
    ((machine 4095 [] []).run = .running ∧ 4096 < (machine 4095 [] []).ip.toNat + 2) ∧
    CanExecute 2 (machine 4094 [(1, 0x80000000)] []) ∧ 16 ≤ (16 : Byte).toNat ∧
    (-2147483648 : Int) =
      (if ((machine 4094 [(1, 0x80000000)] []).view 2 1).toNat < 2 ^ 31
       then (((machine 4094 [(1, 0x80000000)] []).view 2 1).toNat : Int)
       else ((machine 4094 [(1, 0x80000000)] []).view 2 1).toNat - 2 ^ 32) ∧
    (machine 4094 [(1, 0x80000000)] []).sink.answer = .ok ∧
    (withAnswer (machine 4094 [(1, 0x80000000)] []) (.fail 3 ⟨1⟩)).sink.answer = .fail 3 ⟨1⟩ := by decide

theorem witness_DecimalTextIsTheNumeral :
    ((-2 ^ 31 : Int) ≤ -2 ^ 31 ∧ (-2 ^ 31 : Int) < 2 ^ 31 ∧ (-2 ^ 31 : Int) < 0) ∧
    ((-2 ^ 31 : Int) ≤ 0 ∧ (0 : Int) < 2 ^ 31) ∧ (0 : Int) < 2 ^ 31 - 1 := by decide

end Sys2Proof.Tests
end

/-! PROOFS. CONSTRUCT, CORE's reset (70_reset_and_hazards.md R93; 10_state.md R22). -/

namespace Sys2Proof.Machine

/-- Every address reads as 0 after reset (R22). -/
@[simp] theorem read_reset (a : Nat) : State.reset.mem.read a = 0 := rfl

/-- Every register is 0 after reset (R22). -/
@[simp] theorem reg_reset (i : Reg) : State.reset.reg i = 0 := by
  simp [State.reg, State.reset]

/-- An image that fits is placed whole from address 0 in the machine after reset (R93). -/
theorem construct_of_fits {image : List Byte} (h : image.length ≤ Config.memSize) :
    construct image = .ok (State.reset.setMem (State.reset.mem.writeBytes 0 image)) := if_pos h

/-- Settles O7: an image that fits only replaces the memory of the reset machine, and a byte read back is the image's byte
below its length and the reset machine's byte from there on. -/
theorem constructGivesTheResetState : Obligations.ConstructGivesTheResetState := by
  intro image hfits
  refine ⟨_, construct_of_fits hfits, fun i => ?registers, fun k b hk => ?front, fun k hk _ => ?rest, rfl⟩
  case registers => rw [setMem_reg, reg_reset]
  case front =>
    obtain ⟨hlt, rfl⟩ := List.getElem?_eq_some_iff.1 hk
    have hin : 0 + image.length ≤ Config.memSize := by rwa [Nat.zero_add]
    simpa using read_writeBytes_in (m := State.reset.mem) wf_empty hin hlt
  case rest =>
    rw [setMem_mem, read_writeBytes_out _ _ _ (.inr (by rwa [Nat.zero_add])), read_reset]

end Sys2Proof.Machine

/-! PROOFS. Data words in memory (20_memory.md R25, R26). -/

namespace Sys2Proof.Machine

/-- Bits `8k+7` to `8k` of a word are its base-256 digit `k` (R26). -/
theorem toNat_extractLsb'_byte (v : Word) (k : Nat) : (v.extractLsb' (8 * k) 8).toNat = v.toNat / 256 ^ k % 256 := by
  have hpow : 2 ^ (8 * k) = 256 ^ k := Nat.pow_mul 2 8 k
  rw [BitVec.extractLsb'_toNat, Nat.shiftRight_eq_div_pow, hpow]

/-- Byte `k` of a written word is its base-256 digit `k` (R26). -/
theorem toNat_read_writeWord_in {m : Memory} (h : m.wf) {a : Nat} (ha : a + 4 ≤ Config.memSize) (v : Word) {k : Nat}
    (hk : k < 4) : ((m.writeWord a v).read (a + k)).toNat = v.toNat / 256 ^ k % 256 := by
  rw [read_writeWord_in h ha v hk, toNat_extractLsb'_byte]

/-- Settles O39: the four rules of a data word, one for each part. -/
theorem wordsAreLittleEndianAndReadBack : Obligations.WordsAreLittleEndianAndReadBack := by
  intro m a v hwf hin
  refine ⟨fun k hk => ?bytes, fun x hx => ?frame, ?sum, ?readBack⟩
  case bytes => exact toNat_read_writeWord_in hwf hin v hk
  case frame => exact read_writeWord_out m a v hx
  case sum => exact toNat_readWord m a
  case readBack => exact readWord_writeWord hwf hin v

end Sys2Proof.Machine

/-! PROOFS. Illegal encodings and the immediate (30_encoding.md R45, R47). -/

namespace Sys2Proof.Machine

/-! ### Illegal opcode bytes -/

/-- The decoder refuses a first byte exactly when it selects no opcode (R46). -/
theorem decode_cons_illegalOpcode_iff {b : Byte} {rest : List Byte} :
    decode (b :: rest) = .error (.illegalOpcode b) ↔ Opcode.ofByte b = none := by
  rw [decode]
  cases Opcode.ofByte b with
  | none => simp
  | some op => simp only [reduceCtorEq, iff_false]; split <;> simp

/-- The bytes that select no opcode, the first of them as a byte (R47). -/
theorem ofByte_eq_none_iff_byte {b : Byte} : Opcode.ofByte b = none ↔ b = 0x00 ∨ 0x09 ≤ b.toNat := by
  rw [ofByte_eq_none_iff, BitVec.toNat_eq (y := 0x00)]
  rfl

/-! ### Bad register bytes -/

section

variable {s : State}

/-- A register check raises when it or a later check of the same handler meets a bad register byte (R55). -/
theorem checkReg_of_badRegister {r : Byte} {rest : List Byte} {f : Reg → Result}
    (hbad : ∃ x ∈ r :: rest, Config.nregs ≤ x.toNat)
    (hrest : (∃ x ∈ rest, Config.nregs ≤ x.toNat) → ∀ i, f i = s.raise .invalidRegisterAccess) :
    checkReg r s f = s.raise .invalidRegisterAccess := by
  by_cases hr : r.toNat < Config.nregs
  · rw [checkReg_of_lt hr]
    exact hrest ((List.or_exists_of_exists_mem_cons hbad).resolve_left (Nat.not_le.2 hr)) _
  · exact checkReg_of_ge (Nat.not_lt.1 hr)

/-- The last register check of a handler raises on a bad register byte (R55). -/
theorem checkReg_of_badRegister_last {r : Byte} {f : Reg → Result} (hbad : ∃ x ∈ [r], Config.nregs ≤ x.toNat) :
    checkReg r s f = s.raise .invalidRegisterAccess :=
  checkReg_of_badRegister hbad fun ⟨_, hx, _⟩ => nomatch hx

/-- Once the span check has passed, a bad register byte makes the instruction raise, whatever its other operands are (R55). -/
theorem exec_of_badRegister {i : Instr} (hx : CanExecute i.width s)
    (hbad : ∃ r ∈ i.regOperands, Config.nregs ≤ r.toNat) : exec i s = s.raise .invalidRegisterAccess := by
  obtain ⟨hrun, hfits⟩ := hx
  cases i with
  | moveIf a b c =>
    exact (handler_of_canExecute hrun hfits).trans <| checkReg_of_badRegister hbad fun hbad _ =>
      checkReg_of_badRegister hbad fun hbad _ => checkReg_of_badRegister_last hbad
  | store a b =>
    exact (handler_of_canExecute hrun hfits).trans <| checkReg_of_badRegister hbad fun hbad _ =>
      checkReg_of_badRegister_last hbad
  | load a b =>
    exact (handler_of_canExecute hrun hfits).trans <| checkReg_of_badRegister hbad fun hbad _ =>
      checkReg_of_badRegister_last hbad
  | loadimm a l h => exact (handler_of_canExecute hrun hfits).trans (checkReg_of_badRegister_last hbad)
  | sub a b c =>
    exact (handler_of_canExecute hrun hfits).trans <| checkReg_of_badRegister hbad fun hbad _ =>
      checkReg_of_badRegister hbad fun hbad _ => checkReg_of_badRegister_last hbad
  | out a => exact (handler_of_canExecute hrun hfits).trans (checkReg_of_badRegister_last hbad)
  | exit => exact absurd hbad (by simp [Instr.regOperands])
  | outNumber a => exact (handler_of_canExecute hrun hfits).trans (checkReg_of_badRegister_last hbad)

end

/-- Settles O4: the decoder and the fetch look at the same opcode byte, and a fetched instruction has passed its span check. -/
theorem illegalEncodingsRaise : Obligations.IllegalEncodingsRaise := by
  refine ⟨fun b rest => ?decoder, fun s hrun hip hillegal => ?opcode, fun s i rest hrun hdecode hbad => ?register⟩
  case decoder => exact decode_cons_illegalOpcode_iff.trans ofByte_eq_none_iff_byte
  case opcode => exact step_of_fetch_error hrun (fetch_illegal hip (ofByte_eq_none_iff_byte.2 hillegal))
  case register =>
    have hfetch := fetch_of_decode hdecode
    rw [step_of_fetch_ok hrun hfetch]
    exact exec_of_badRegister ⟨hrun, (fetch_ok hfetch).1⟩ hbad

/-! ### The immediate -/

/-- The 16-bit value of the two raw bytes, `imm16 = (H << 8) | L`, as a number (R45). -/
theorem toNat_append_byte (h l : Byte) : (h ++ l).toNat = h.toNat * 256 + l.toNat := by
  rw [BitVec.toNat_append, ← Nat.shiftLeft_add_eq_or_of_lt l.isLt, Nat.shiftLeft_eq]

/-- The immediate as an unsigned number: `imm16`, and the sign bits of a high byte of 0x80 or more (R45). -/
theorem toNat_immediate (l h : Byte) :
    (immediate l h).toNat = h.toNat * 256 + l.toNat + if 0x80 ≤ h.toNat then 0xFFFF0000 else 0 := by
  have himm16 := toNat_append_byte h l
  have hl := l.isLt
  have hh := h.isLt
  have hsign : (h ++ l).msb = decide (0x80 ≤ h.toNat) := by
    rw [BitVec.msb_eq_decide, himm16, decide_eq_decide]; omega
  have hkeep : ((h ++ l).setWidth 32).toNat = h.toNat * 256 + l.toNat := by
    rw [BitVec.toNat_setWidth, himm16]; omega
  rw [immediate, BitVec.toNat_signExtend, hkeep, hsign]
  simp

/-- Settles O5, from the value of the immediate with its sign bits as one term. -/
theorem immediateIsTheSignExtendedPair : Obligations.ImmediateIsTheSignExtendedPair := by
  intro l h
  refine ⟨fun hlow => ?low, fun hhigh => ?high⟩
  case low => rw [toNat_immediate, if_neg (Nat.not_le.2 hlow), Nat.add_zero]
  case high => rw [toNat_immediate, if_pos hhigh]

end Sys2Proof.Machine

/-! PROOFS. The sequencer: fetch, dispatch, the register check, the result of a step, the views (40_sequencer.md R52, R53, R55,
R58, R62). -/

namespace Sys2Proof.Machine

variable {s t : State} {i : Instr}

/-! ### Fetch and dispatch -/

/-- Settles O18: the fetch check comes first. -/
theorem fetchBeyondMemoryRaises : Obligations.FetchBeyondMemoryRaises := by
  intro s hrun hip
  exact step_of_fetch_error hrun (fetch_beyond hip)

/-- When the byte at the IP is an opcode's and its span fits, the step is that opcode's handler on the bytes `o` from the IP on
(R53). -/
theorem step_of_opcode {op : Opcode} {o : Nat → Byte} (hrun : s.run = .running)
    (ho : ∀ k, o k = s.mem.read (s.ip.toNat + k)) (hop : o 0 = op.byte)
    (hfits : s.ip.toNat + op.width ≤ Config.memSize) : step s = exec (op.build o) s := by
  obtain rfl : o = fun k => s.mem.read (s.ip.toNat + k) := funext ho
  have hsel : Opcode.ofByte (s.mem.read s.ip.toNat) = some op := (congrArg _ hop).trans (ofByte_byte op)
  exact step_of_fetch_ok hrun (fetch_fits hsel hfits)

/-- Settles O19: a legal opcode byte by the handler it selects, every other byte by the fetch, which looks at no width. -/
theorem dispatchFollowsTheOpcodeMap : Obligations.DispatchFollowsTheOpcodeMap := by
  rintro s _ o hrun rfl hip ho
  refine ⟨step_of_opcode (op := .moveIf) hrun ho, step_of_opcode (op := .store) hrun ho,
    step_of_opcode (op := .load) hrun ho, step_of_opcode (op := .loadimm) hrun ho, step_of_opcode (op := .sub) hrun ho,
    step_of_opcode (op := .out) hrun ho, fun hop => step_of_opcode (op := .exit) hrun ho hop hip,
    step_of_opcode (op := .outNumber) hrun ho, fun hillegal => ?illegal⟩
  case illegal =>
    rw [ho 0] at hillegal
    exact step_of_fetch_error hrun (fetch_illegal hip (ofByte_eq_none_iff_byte.2 hillegal))

/-! ### The run state after an instruction -/

/-- An instruction that asks the sink ends in Running or in an IoFailure (R74). -/
theorem run_of_sinkAnswered {w : Nat} {bytes : List Byte} (hrun : s.run = .running) (h : SinkAnswered w bytes s t) :
    t.run = .running ∨ ∃ e, t.run = .errored (.ioFailure e) := by
  obtain ⟨-, rfl⟩ | ⟨n, e, -, rfl⟩ := h
  · exact .inl hrun
  · exact .inr ⟨e, rfl⟩

/-- The run state an instruction leads to: that of a failed check, that of its completion, or an IoFailure (R58). -/
theorem exec_next_run (h : exec i s = .next t) :
    CheckFailed i s t ∨ t.run = (if i = .exit then .halted else .running) ∨ ∃ e, t.run = .errored (.ioFailure e) := by
  cases i with
  | moveIf a b c =>
    obtain ⟨hrun, hfail | ⟨ra, rb, rc, -, -, -, -, rfl⟩⟩ := execMoveIf_next h
    · exact .inl hfail
    · refine .inr (.inl ?_)
      split <;> exact hrun
  | store a b =>
    obtain ⟨hrun, hfail | ⟨ra, rb, -, -, -, -, rfl⟩⟩ := execStore_next h
    · exact .inl hfail
    · exact .inr (.inl hrun)
  | load a b =>
    obtain ⟨hrun, hfail | ⟨ra, rb, -, -, -, -, rfl⟩⟩ := execLoad_next h
    · exact .inl hfail
    · exact .inr (.inl hrun)
  | loadimm a l h' =>
    obtain ⟨hrun, hfail | ⟨ra, -, -, rfl⟩⟩ := execLoadimm_next h
    · exact .inl hfail
    · exact .inr (.inl hrun)
  | sub a b c =>
    obtain ⟨hrun, hfail | ⟨ra, rb, rc, -, -, -, -, rfl⟩⟩ := execSub_next h
    · exact .inl hfail
    · exact .inr (.inl hrun)
  | out a =>
    obtain ⟨hrun, hfail | ⟨ra, -, -, hsink⟩⟩ := execOut_next h
    · exact .inl hfail
    · exact .inr (run_of_sinkAnswered hrun hsink)
  | exit =>
    obtain ⟨-, hfail | ⟨-, rfl⟩⟩ := execExit_next h
    · exact .inl hfail
    · exact .inr (.inl rfl)
  | outNumber a =>
    obtain ⟨hrun, hfail | ⟨ra, -, -, hsink⟩⟩ := execOutNumber_next h
    · exact .inl hfail
    · exact .inr (run_of_sinkAnswered hrun hsink)

/-! ### The register check -/

/-- An instruction that ends in InvalidRegisterAccess has a bad register byte (R55). -/
theorem badRegister_of_exec_next (h : exec i s = .next t) (hrun : t.run = .errored .invalidRegisterAccess) :
    ∃ r ∈ i.regOperands, Config.nregs ≤ r.toNat := by
  obtain (⟨-, rfl⟩ | ⟨hbad, -⟩ | ⟨-, rfl⟩) | hdone | ⟨e, hio⟩ := exec_next_run h
  · cases hrun
  · exact hbad
  · cases hrun
  · rw [hrun] at hdone; split at hdone <;> cases hdone
  · rw [hrun] at hio; cases hio

/-- Settles O21: a bad register byte raises, and nothing else raises InvalidRegisterAccess. -/
theorem everyRegisterOperandIsChecked : Obligations.EveryRegisterOperandIsChecked := by
  refine ⟨fun i s hx => ⟨fun hbad => exec_of_badRegister hx hbad, fun hgood t h hrun => ?_⟩,
    fun a b c => ⟨rfl, rfl, rfl, rfl, rfl, rfl, rfl, rfl⟩⟩
  obtain ⟨r, hr, hbad⟩ := badRegister_of_exec_next h hrun
  exact absurd (hgood r hr) (Nat.not_lt.2 hbad)

/-! ### The result of a step -/

/-- The result Continue tells the run state Running (R58). -/
theorem stepResult_eq_continue_iff : s.stepResult = .continue ↔ s.run = .running := by
  cases h : s.run <;> simp [State.stepResult, h]

/-- The result Halted tells the run state Halted (R58). -/
theorem stepResult_eq_halted_iff : s.stepResult = .halted ↔ s.run = .halted := by
  cases h : s.run <;> simp [State.stepResult, h]

/-- The result Error(kind) tells the run state Errored(kind) (R58). -/
theorem stepResult_eq_error_iff {kind : ErrorKind} : s.stepResult = .error kind ↔ s.run = .errored kind := by
  cases h : s.run <;> simp [State.stepResult, h]

/-- `exit` alone has the opcode byte 7 (R46). -/
theorem opcode_byte_eq_seven_iff : i.opcode.byte = 0x07 ↔ i = .exit := by
  cases i <;> simp [Instr.opcode, Opcode.byte]

/-- Where its span fits, an instruction halts the machine exactly when it is `exit` (R58, R76). -/
theorem exec_halted_iff (hx : CanExecute i.width s) (h : exec i s = .next t) : t.run = .halted ↔ i = .exit := by
  constructor
  · intro hhalt
    obtain hfail | hdone | ⟨e, hio⟩ := exec_next_run h
    · obtain ⟨kind, -, rfl⟩ := checkFailed_state hfail
      cases hhalt
    · by_contra hne
      rw [if_neg hne, hhalt] at hdone
      cases hdone
    · rw [hhalt] at hio; cases hio
  · rintro rfl
    cases (execExit_ok hx).symm.trans h
    rfl

/-- A step halts the machine exactly when the opcode byte at the IP is that of `exit` (R58, R76). -/
theorem step_halted_iff (h : step s = .next t) :
    t.run = .halted ↔ s.ip.toNat < Config.memSize ∧ s.mem.read s.ip.toNat = 0x07 := by
  obtain ⟨hrun, ⟨kind, hfetch, rfl⟩ | ⟨i, hfetch, hexec⟩⟩ := step_next h
  · have hnot : ¬ (s.ip.toNat < Config.memSize ∧ s.mem.read s.ip.toNat = 0x07) := by
      rintro ⟨hip, hop⟩
      have hfits : s.fetch = .ok .exit := fetch_fits (op := .exit) (by rw [hop]; rfl) hip
      rw [hfetch] at hfits
      cases hfits
    exact iff_of_false (by simp) hnot
  · obtain ⟨hfits, hop⟩ := fetch_ok hfetch
    have hip : s.ip.toNat < Config.memSize := Nat.lt_of_lt_of_le (Nat.lt_add_of_pos_right (one_le_width i.opcode)) hfits
    rw [exec_halted_iff ⟨hrun, hfits⟩ hexec, hop, opcode_byte_eq_seven_iff, and_iff_right hip]

/-- Settles O25: the result is read off the run state, and only `exit` leads to Halted. -/
theorem stepResultsMatchRunStates : Obligations.StepResultsMatchRunStates := by
  intro s t h
  exact ⟨stepResult_eq_continue_iff, stepResult_eq_halted_iff, fun _ => stepResult_eq_error_iff,
    stepResult_eq_halted_iff.trans (step_halted_iff h)⟩

/-! ### The views -/

/-- Byte `a` of MEM_VIEW is `mem[a]` (R62). -/
theorem getElem?_memView {a : Nat} (ha : a < Config.memSize) : s.memView[a]? = some (s.mem.read a) := by
  have hlen : a < s.memView.length := by rwa [State.memView, length_readBytes]
  have hbyte : s.memView[a] = s.mem.read (0 + a) := getElem_readBytes s.mem 0 Config.memSize hlen
  rw [List.getElem?_eq_getElem hlen, hbyte, Nat.zero_add]

/-- Settles O11: REGS_VIEW is the registers themselves, and MEM_VIEW the bytes read from address 0 on. -/
theorem viewsShowTheState : Obligations.ViewsShowTheState := by
  intro s
  exact ⟨fun _ => rfl, length_readBytes s.mem 0 Config.memSize, fun _ ha => getElem?_memView ha⟩

end Sys2Proof.Machine

/-! PROOFS. The register instructions and the subtraction (41_alu_and_moves.md R67 to R70). -/

namespace Sys2Proof.Machine

variable {s : State} {w : Nat}

/-! ### The span check -/

/-- An instruction whose span overruns memory raises InvalidMemoryAccess, whatever its operands are (R54, R55). -/
theorem exec_of_overrun {i : Instr} (hrun : s.run = .running) (hover : Config.memSize < s.ip.toNat + i.width) :
    exec i s = s.raise .invalidMemoryAccess := by
  have hspan (k : Result) : handler i.width s k = s.raise .invalidMemoryAccess := by
    rw [handler, whenRunning_of_running hrun, checkSpan_of_overrun hover]
  cases i <;> exact hspan _

/-! ### The advance and the write of the destination -/

/-- The advance writes no register but the IP (R57). -/
theorem regsKept_advance : RegsKept [0] s (s.advance w) := by
  intro i hi
  rw [reg_advance, if_neg (by simpa using hi)]

/-- The advance and a write to register `a` write no other register (R14, R57). -/
theorem regsKept_advance_setReg {a : Reg} {v : Word} : RegsKept [0, a] s ((s.advance w).setReg a v) := by
  intro i hi
  obtain ⟨h0, ha⟩ : i ≠ 0 ∧ i ≠ a := by simpa using hi
  rw [reg_setReg, if_neg ha.symm, reg_advance, if_neg h0]

/-- Where the span fits, `x[0]` after the advance is `ip + w` as a number (R57). -/
theorem toNat_reg_zero_advance (hfits : s.ip.toNat + w ≤ Config.memSize) :
    ((s.advance w).reg 0).toNat = s.ip.toNat + w := by
  rw [reg_advance, if_pos rfl, toNat_ip_add hfits]

/-- A write to another register leaves the advanced `x[0]` in place (R57). -/
theorem toNat_reg_zero_advance_setReg {a : Reg} {v : Word} (hfits : s.ip.toNat + w ≤ Config.memSize) (ha : a ≠ 0) :
    (((s.advance w).setReg a v).reg 0).toNat = s.ip.toNat + w := by
  rw [reg_setReg, if_neg ha, toNat_reg_zero_advance hfits]

/-- The register written last reads as the value written, register 0 too (R57; D2). -/
theorem reg_setReg_same {a : Reg} {v : Word} : (s.setReg a v).reg a = v := by
  rw [reg_setReg, if_pos rfl]

/-! ### Subtraction -/

/-- The value of a subtraction as an unsigned number (R69, R70). -/
theorem toNat_subWrap (p q : Word) : (subWrap p q).toNat = (p.toNat + 2 ^ 32 - q.toNat) % 2 ^ 32 := by
  rw [subWrap, BitVec.toNat_sub', Nat.add_sub_assoc q.isLt.le p.toNat]

/-- The unsigned reading of a word is its signed reading modulo 2^32 (R9). -/
theorem toNat_eq_toInt_emod (p : Word) : (p.toNat : Int) = p.toInt % 2 ^ 32 := by
  have hlt : (p.toNat : Int) < 2 ^ 32 := mod_cast p.isLt
  calc (p.toNat : Int) = p.toNat % 2 ^ 32 := (Int.emod_eq_of_lt p.toNat.cast_nonneg hlt).symm
    _ = p.toInt % 2 ^ 32 := by rw [BitVec.toInt_eq_toNat_bmod]; exact Int.bmod_emod.symm

/-- Settles O37: the two unsigned cases from the one formula for both, the signed reading through its own subtraction. -/
theorem subtractionIsModuloTwoToThe32 : Obligations.SubtractionIsModuloTwoToThe32 := by
  intro p q
  have hp := p.isLt
  refine ⟨fun hle => ?noBorrow, fun hlt => ?borrow, ?signed⟩
  case noBorrow => rw [toNat_subWrap]; omega
  case borrow => rw [toNat_subWrap]; omega
  case signed =>
    calc ((subWrap p q).toNat : Int) = (p - q).toInt % 2 ^ 32 := toNat_eq_toInt_emod (p - q)
      _ = (p.toInt - q.toInt) % 2 ^ 32 := by rw [BitVec.toInt_sub]; exact Int.bmod_emod

/-! ### The instructions -/

/-- A bad register byte among three (R55). -/
theorem exists_badRegister_of_three {a b c : Byte} (h : 16 ≤ a.toNat ∨ 16 ≤ b.toNat ∨ 16 ≤ c.toNat) :
    ∃ r ∈ [a, b, c], Config.nregs ≤ r.toNat := by
  simpa using h

/-- `move_if` whose condition register is not 0 (R67). -/
theorem execMoveIf_of_ne_zero {a b c : Reg} (hx : CanExecute 4 s) (hc : s.view 4 c ≠ 0) :
    execMoveIf (regByte a) (regByte b) (regByte c) s = .next ((s.advance 4).setReg a (s.view 4 b)) := by
  rw [execMoveIf_ok hx (toNat_regByte a) (toNat_regByte b) (toNat_regByte c), if_pos hc]

/-- `move_if` whose condition register is 0 (R67). -/
theorem execMoveIf_of_eq_zero {a b c : Reg} (hx : CanExecute 4 s) (hc : s.view 4 c = 0) :
    execMoveIf (regByte a) (regByte b) (regByte c) s = .next (s.advance 4) := by
  rw [execMoveIf_ok hx (toNat_regByte a) (toNat_regByte b) (toNat_regByte c), if_neg (not_not_intro hc)]

/-- Settles O34: the completion by whether the condition holds. -/
theorem moveIfFollowsItsRule : Obligations.MoveIfFollowsItsRule := by
  refine fun s => ⟨fun _ _ _ => rfl, fun _ _ _ hrun hover => exec_of_overrun hrun hover,
    fun _ _ _ hx hbad => exec_of_badRegister hx (exists_badRegister_of_three hbad), fun a b c hx => ?_⟩
  by_cases hc : s.view 4 c = 0
  · have hkept : RegsKept [0] s (s.advance 4) := regsKept_advance
    exact ⟨_, execMoveIf_of_eq_zero hx hc, hx.1, fun _ => rfl, ⟨rfl, rfl, rfl⟩,
      fun i hi => hkept i fun h0 => hi (List.mem_append_left [a] h0), fun hne => absurd hc hne,
      fun hne => absurd hc hne, fun _ => ⟨toNat_reg_zero_advance hx.2, hkept⟩⟩
  · exact ⟨_, execMoveIf_of_ne_zero hx hc, hx.1, fun _ => rfl, ⟨rfl, rfl, rfl⟩, regsKept_advance_setReg,
      fun _ => reg_setReg_same, fun _ ha => toNat_reg_zero_advance_setReg hx.2 ha, fun heq => absurd heq hc⟩

/-- Settles O35: the value is that of the immediate. -/
theorem loadimmFollowsItsRule : Obligations.LoadimmFollowsItsRule := by
  refine fun s => ⟨fun _ _ _ => rfl, fun _ _ _ hrun hover => exec_of_overrun hrun hover,
    fun a _ _ hx hbad => exec_of_badRegister hx ⟨a, List.mem_singleton_self a, hbad⟩, fun a l h hx => ?_⟩
  refine ⟨_, execLoadimm_ok hx (toNat_regByte a), hx.1, fun _ => rfl, ⟨rfl, rfl, rfl⟩, regsKept_advance_setReg, ?value,
    toNat_reg_zero_advance_setReg hx.2⟩
  case value =>
    rw [reg_setReg_same, toNat_immediate]
    simp only [← Nat.not_lt, ite_not]

/-- Settles O36: the value is that of the subtraction of the two views. -/
theorem subFollowsItsRule : Obligations.SubFollowsItsRule := by
  refine fun s => ⟨fun _ _ _ => rfl, fun _ _ _ hrun hover => exec_of_overrun hrun hover,
    fun _ _ _ hx hbad => exec_of_badRegister hx (exists_badRegister_of_three hbad), fun a b c hx => ?_⟩
  refine ⟨_, execSub_ok hx (toNat_regByte a) (toNat_regByte b) (toNat_regByte c), hx.1, fun _ => rfl, ⟨rfl, rfl, rfl⟩,
    regsKept_advance_setReg, ?value, toNat_reg_zero_advance_setReg hx.2⟩
  case value => rw [reg_setReg_same, toNat_subWrap]

end Sys2Proof.Machine

/-! PROOFS. The memory instructions, and a store read back by a load (42_memory_ops.md R71 to R73). -/

namespace Sys2Proof.Machine

variable {s : State} {m : Memory} {w : Nat} {a b : Reg}

/-! ### The checks -/

/-- A bad register byte among two (R55). -/
theorem exists_badRegister_of_two {x y : Byte} (h : 16 ≤ x.toNat ∨ 16 ≤ y.toNat) :
    ∃ r ∈ [x, y], Config.nregs ≤ r.toNat := by
  simpa using h

/-- A `store` whose four bytes overrun memory raises InvalidMemoryAccess (R71, R72; D3, D4). -/
theorem execStore_of_outOfRange (hx : CanExecute 3 s) (hover : Config.memSize < (s.view 3 a).toNat + 4) :
    execStore (regByte a) (regByte b) s = s.raise .invalidMemoryAccess := by
  rw [execStore, handler_of_canExecute hx.1 hx.2, checkReg_of_eq (toNat_regByte a), checkReg_of_eq (toNat_regByte b),
    checkWordAt_of_outOfRange hover]

/-- A `load` whose four bytes overrun memory raises InvalidMemoryAccess (R71, R73; D3, D4). -/
theorem execLoad_of_outOfRange (hx : CanExecute 3 s) (hover : Config.memSize < (s.view 3 b).toNat + 4) :
    execLoad (regByte a) (regByte b) s = s.raise .invalidMemoryAccess := by
  rw [execLoad, handler_of_canExecute hx.1 hx.2, checkReg_of_eq (toNat_regByte a), checkReg_of_eq (toNat_regByte b),
    checkWordAt_of_outOfRange hover]

/-! ### The instructions -/

/-- Settles O41: a `store` that passes its checks advances the IP and writes one word at the view of its address register. -/
theorem storeFollowsItsRule : Obligations.StoreFollowsItsRule := by
  refine fun s => ⟨fun _ _ => rfl, fun _ _ hrun hover => exec_of_overrun hrun hover,
    fun _ _ hx hbad => exec_of_badRegister hx (exists_badRegister_of_two hbad),
    fun _ _ hx hover => execStore_of_outOfRange hx hover, fun a b hx hwf hin => ?_⟩
  refine ⟨_, execStore_ok hx (toNat_regByte a) (toNat_regByte b) hin, hx.1, ⟨rfl, rfl, rfl⟩, regsKept_advance,
    toNat_reg_zero_advance hx.2, fun k hk => ?bytes, fun x hout => ?frame⟩
  case bytes => exact toNat_read_writeWord_in hwf hin _ hk
  case frame => exact read_writeWord_out s.mem _ _ hout

/-- Settles O42: a `load` that passes its checks writes the word at the view of its address register over the advanced state. -/
theorem loadFollowsItsRule : Obligations.LoadFollowsItsRule := by
  refine fun s => ⟨fun _ _ => rfl, fun _ _ hrun hover => exec_of_overrun hrun hover,
    fun _ _ hx hbad => exec_of_badRegister hx (exists_badRegister_of_two hbad),
    fun _ _ hx hover => execLoad_of_outOfRange hx hover, fun a b hx hin => ?_⟩
  refine ⟨_, execLoad_ok hx (toNat_regByte a) (toNat_regByte b) hin, hx.1, fun _ => rfl, ⟨rfl, rfl, rfl⟩,
    regsKept_advance_setReg, ?value, toNat_reg_zero_advance_setReg hx.2⟩
  case value => rw [reg_setReg_same, toNat_readWord]

/-! ### A load after a store -/

/-- After an instruction of width `w` that advanced and wrote only memory, the next one can execute if the bytes of both fit
(R54, R57). -/
theorem canExecute_advance_setMem {w' : Nat} (hx : CanExecute (w + w') s) : CanExecute w' ((s.advance w).setMem m) := by
  obtain ⟨hrun, hfits⟩ := hx
  refine ⟨hrun, ?_⟩
  rw [setMem_ip, ip_advance, toNat_ip_add (by omega), Nat.add_assoc]
  exact hfits

/-- A register other than the IP has the same view before and after an advance and a write to memory (R56). -/
theorem view_advance_setMem {w' : Nat} (ha : a ≠ 0) : ((s.advance w).setMem m).view w' a = s.view w a := by
  rw [view_of_ne_zero ha, setMem_reg, view_eq_advance_reg]

/-- Settles O43: both instructions see one address, and the word read there is the word written. -/
theorem storeThenLoadRoundTrips : Obligations.StoreThenLoadRoundTrips := by
  intro s a b c hx hwf ha hin
  have hx3 : CanExecute 3 s := ⟨hx.1, by have hfits := hx.2; omega⟩
  rw [← view_of_ne_zero (w := 3) ha] at hin
  have hview (m : Memory) : ((s.advance 3).setMem m).view 3 a = s.view 3 a := view_advance_setMem ha
  refine ⟨_, _, execStore_ok hx3 (toNat_regByte a) (toNat_regByte b) hin,
    execLoad_ok (canExecute_advance_setMem hx) (toNat_regByte c) (toNat_regByte a) (by rwa [hview]), ?readBack⟩
  case readBack => rw [reg_setReg_same, hview, setMem_mem, readWord_writeWord hwf hin]

end Sys2Proof.Machine

/-! PROOFS. Output and termination (43_io_and_halt.md R74 to R78). -/

namespace Sys2Proof.Machine

variable {s : State} {w : Nat} {bytes : List Byte}

/-! ### The sink port -/

/-- A request answered ok ends the instruction with the whole string accepted (R74). -/
theorem exists_emitted (hx : CanExecute w s) (hok : s.sink.answer = .ok) :
    ∃ t, s.emit w bytes = .next t ∧ Emitted w bytes s t :=
  ⟨_, emit_of_ok hok, hx.1, rfl, rfl, rfl, toNat_reg_zero_advance hx.2, regsKept_advance, fun _ => rfl⟩

/-- Where the span fits, the draw of D6 leaves the IP as a number at `ip` or at `ip + w` (R74; D6). -/
theorem toNat_ip_drawIp (hfits : s.ip.toNat + w ≤ Config.memSize) :
    (s.drawIp w).ip.toNat = s.ip.toNat ∨ (s.drawIp w).ip.toNat = s.ip.toNat + w := by
  obtain hstay | hadvance := drawIp_ip (s := s) (w := w)
  · exact .inl (by rw [hstay])
  · exact .inr (by rw [hadvance, toNat_ip_add hfits])

/-- A request answered fail ends the instruction in IoFailure, a first part of the string accepted (R74; D6, D7). -/
theorem exists_ioFailed {n : Nat} {e : SinkError} (hx : CanExecute w s) (hfail : s.sink.answer = .fail n e) :
    ∃ t, s.emit w bytes = .next t ∧ IoFailed w bytes n e s t :=
  ⟨_, emit_of_fail hfail, rfl, rfl, rfl, toNat_ip_drawIp hx.2, fun _ hi => drawIp_reg (by simpa using hi), fun _ => rfl⟩

/-! ### `out` -/

/-- An `OR` with a byte whose low six bits are clear adds a byte below 0x40 (R75). -/
theorem or_low_six_bits {x : Byte} (k : Nat) (hx : x.toNat < 2 ^ 6) :
    BitVec.ofNat 8 (2 ^ 6 * k) ||| x = BitVec.ofNat 8 (2 ^ 6 * k + x.toNat) := by
  rw [Nat.two_pow_add_eq_or_of_lt hx, BitVec.ofNat_or, BitVec.ofNat_toNat, BitVec.setWidth_eq]

/-- The two UTF-8 bytes of a byte as sums (R75; D5). -/
theorem utf8_bytes_eq (b : Byte) :
    [0xC0 ||| b >>> 6, 0x80 ||| (b &&& 0x3F)] =
      [BitVec.ofNat 8 (0xC0 + b.toNat / 64), BitVec.ofNat 8 (0x80 + b.toNat % 64)] := by
  have hb := b.isLt
  have hhigh : (b >>> 6).toNat = b.toNat / 64 := by rw [BitVec.toNat_ushiftRight, Nat.shiftRight_eq_div_pow]
  have hlow : (b &&& 0x3F).toNat = b.toNat % 64 := Nat.and_two_pow_sub_one_eq_mod b.toNat 6
  rw [← hhigh, ← hlow]
  exact congrArg₂ (fun x y => [x, y]) (or_low_six_bits 3 (by omega)) (or_low_six_bits 2 (by omega))

/-- The bytes of one character by the number of its byte (R75; D5). -/
theorem characterBytes_eq (enc : OutByteEncoding) (b : Byte) :
    characterBytes enc b =
      if b.toNat < 0x80 then [BitVec.ofNat 8 b.toNat]
      else if enc = .raw then [BitVec.ofNat 8 b.toNat]
      else [BitVec.ofNat 8 (0xC0 + b.toNat / 64), BitVec.ofNat 8 (0x80 + b.toNat % 64)] := by
  rw [BitVec.ofNat_toNat, BitVec.setWidth_eq, ← utf8_bytes_eq]
  cases enc <;> rfl

/-- The byte `out` writes, as a number: the view modulo 256 (R75). -/
theorem toNat_low_byte (v : Word) : (v.extractLsb' 0 8).toNat = v.toNat % 256 := by
  rw [toNat_extractLsb'_byte v 0, pow_zero, Nat.div_one]

/-- Settles O46: the checks are those of every instruction, and an `out` that passes them is one request to the sink. -/
theorem outFollowsItsRule : Obligations.OutFollowsItsRule := by
  refine fun s => ⟨fun _ => rfl, fun _ hrun hover => exec_of_overrun hrun hover,
    fun a hx hbad => exec_of_badRegister hx ⟨a, List.mem_singleton_self a, hbad⟩, ?_⟩
  rintro a _ bytes hx rfl hbytes
  have hexec : exec (.out (regByte a)) s = s.emit 2 bytes := by
    rw [hbytes, ← toNat_low_byte, ← characterBytes_eq]
    exact execOut_ok hx (toNat_regByte a)
  rw [hexec]
  exact ⟨exists_emitted hx, fun _ _ => exists_ioFailed hx⟩

/-! ### `exit` -/

/-- Settles O47: the span of `exit` is its opcode byte alone, so no check of it can fail. -/
theorem exitFollowsItsRule : Obligations.ExitFollowsItsRule := by
  refine ⟨rfl, fun s hrun hip => ?_⟩
  exact ⟨_, execExit_ok ⟨hrun, hip⟩, rfl, toNat_reg_zero_advance hip, regsKept_advance, fun _ => rfl, rfl, rfl, rfl⟩

/-! ### `out_number` -/

/-- The signed reading of a word by its unsigned one (R9). -/
theorem toInt_eq_ite (v : Word) : v.toInt = if v.toNat < 2 ^ 31 then (v.toNat : Int) else v.toNat - 2 ^ 32 := by
  have hhalf : 2 * v.toNat < 2 ^ 32 ↔ v.toNat < 2 ^ 31 := by omega
  simp only [BitVec.toInt_eq_toNat_cond, hhalf, Nat.cast_pow, Nat.cast_ofNat]

/-- Settles O48: the checks are those of every instruction, and an `out_number` that passes them is one request to the
sink. -/
theorem outNumberFollowsItsRule : Obligations.OutNumberFollowsItsRule := by
  refine fun s => ⟨fun _ => rfl, fun _ hrun hover => exec_of_overrun hrun hover,
    fun a hx hbad => exec_of_badRegister hx ⟨a, List.mem_singleton_self a, hbad⟩, fun a n hx hn => ?_⟩
  have hexec : exec (.outNumber (regByte a)) s = s.emit 2 (decimal n) := by
    rw [hn, ← toInt_eq_ite]
    exact execOutNumber_ok hx (toNat_regByte a)
  rw [hexec]
  exact ⟨exists_emitted hx, fun _ _ => exists_ioFailed hx⟩

/-! ### The decimal text -/

/-- A digit's byte as a number (R78). -/
theorem toNat_digitByte {d : Nat} (hd : d < 10) : (digitByte d).toNat = 0x30 + d := by
  rw [digitByte, BitVec.toNat_ofNat, Nat.mod_eq_of_lt (by omega)]

/-- The text of a number that fits in `fuel` digits is the library's digits, which begin with the least significant, in
reverse. -/
theorem digitsUpTo_eq {fuel m : Nat} (hm : m < 10 ^ fuel) :
    digitsUpTo fuel m = ((Nat.digits 10 m).map digitByte).reverse := by
  induction fuel generalizing m with
  | zero =>
    obtain rfl : m = 0 := by simpa using hm
    rw [digitsUpTo, Nat.digits_zero]; rfl
  | succ fuel ih =>
    rw [digitsUpTo]
    split
    · next h0 => rw [h0, Nat.digits_zero]; rfl
    · next h0 =>
      have hdiv : m / 10 < 10 ^ fuel := by rw [pow_succ'] at hm; exact Nat.div_lt_of_lt_mul hm
      rw [ih hdiv, Nat.digits_eq_cons_digits_div (by decide) h0, List.map_cons, List.reverse_cons]

/-- `DIGITS(m)` is the library's decimal digits, most significant first (R78). -/
theorem digits_eq {m : Nat} (hm : m < 10 ^ 10) : digits m = ((Nat.digits 10 m).map digitByte).reverse :=
  digitsUpTo_eq hm

/-- A digit after the others is the units digit. -/
theorem digitsValue_concat (ds : List Byte) (b : Byte) :
    digitsValue (ds ++ [b]) = digitsValue ds * 10 + (b.toNat - 0x30) := List.foldl_concat _ 0 b ds

/-- Digits written most significant first stand for the number the library gives them. -/
theorem digitsValue_reverse_map {l : List Nat} (hl : ∀ d ∈ l, d < 10) :
    digitsValue (l.map digitByte).reverse = Nat.ofDigits 10 l := by
  induction l with
  | nil => rfl
  | cons d l ih =>
    obtain ⟨hd, hl⟩ := List.forall_mem_cons.1 hl
    rw [List.map_cons, List.reverse_cons, digitsValue_concat, ih hl, toNat_digitByte hd, Nat.add_sub_cancel_left,
      Nat.ofDigits_cons, Nat.mul_comm, Nat.add_comm]

/-- `DIGITS(m)` is the numeral of `m` (R78). -/
theorem isNumeral_digits {m : Nat} (h0 : m ≠ 0) (hm : m < 10 ^ 10) : IsNumeral (digits m) m := by
  have hlt : ∀ d ∈ Nat.digits 10 m, d < 10 := fun d => Nat.digits_lt_base (by decide)
  have hne : Nat.digits 10 m ≠ [] := Nat.digits_ne_nil_iff_ne_zero.2 h0
  rw [digits_eq hm]
  refine ⟨by simpa using hne, fun hhead => ?leading, fun b hb => ?ascii, ?value⟩
  case leading =>
    have hlast : digitByte ((Nat.digits 10 m).getLast hne) = 0x30 := by
      simpa [List.getLast?_eq_getLast_of_ne_nil hne] using hhead
    have hnum := toNat_digitByte (hlt _ (List.getLast_mem hne))
    rw [hlast] at hnum
    exact Nat.getLast_digit_ne_zero 10 h0 (Nat.left_eq_add.1 hnum)
  case ascii =>
    obtain ⟨d, hd, rfl⟩ := List.mem_map.1 (List.mem_reverse.1 hb)
    have hd := hlt d hd
    rw [toNat_digitByte hd]
    omega
  case value => rw [digitsValue_reverse_map hlt, Nat.ofDigits_digits]

/-- `DIGITS(m)` has at most ten digits (R78). -/
theorem length_digits_le {m : Nat} (hm : m < 10 ^ 10) : (digits m).length ≤ 10 := by
  rw [digits_eq hm, List.length_reverse, List.length_map]
  exact (Nat.digits_length_le_iff (by decide) m).2 hm

theorem decimal_of_neg {n : Int} (hn : n < 0) : decimal n = 0x2D :: digits n.natAbs := if_pos hn

theorem decimal_zero : decimal 0 = [0x30] := rfl

theorem decimal_of_pos {n : Int} (hn : 0 < n) : decimal n = digits n.natAbs := by
  rw [decimal, if_neg hn.not_gt, if_neg hn.ne']

/-- Settles O49: by the sign of the number, from the numeral of its magnitude. -/
theorem decimalTextIsTheNumeral : Obligations.DecimalTextIsTheNumeral := by
  intro n hlow hhigh
  have hbound : n.natAbs < 10 ^ 10 := by omega
  have hlength := length_digits_le hbound
  obtain hneg | rfl | hpos := lt_trichotomy n 0
  · have hnumeral : IsNumeral (digits n.natAbs) n.natAbs := isNumeral_digits (by omega) hbound
    rw [decimal_of_neg hneg]
    exact ⟨fun _ => ⟨_, rfl, hnumeral⟩, by omega, by omega, Nat.succ_pos _, Nat.succ_le_succ hlength⟩
  · rw [decimal_zero]
    exact ⟨by omega, fun _ => rfl, by omega, by decide, by decide⟩
  · have hnumeral : IsNumeral (digits n.natAbs) n.natAbs := isNumeral_digits (by omega) hbound
    rw [decimal_of_pos hpos]
    exact ⟨by omega, by omega, fun _ => hnumeral, List.length_pos_of_ne_nil hnumeral.1, by omega⟩

end Sys2Proof.Machine

/-! PROOFS. The decoder and the encoder (30_encoding.md R40 to R48). -/

namespace Sys2Proof.Machine

/-! ### Decode and encode -/

/-- Settles O1: the decoder runs on the eight byte sequences. -/
theorem specWordsDecode : Obligations.SpecWordsDecode :=
  ⟨rfl, rfl, rfl, rfl, rfl, rfl, rfl, rfl⟩

/-- The bytes of an encoding followed by others decode to the instruction, and the others are left over (R40, R41). -/
theorem decode_encode_append (i : Instr) (rest : List Byte) : decode (encode i ++ rest) = .ok (i, rest) := by
  have hlen : i.operandBytes.length + 1 = i.opcode.width := length_operandBytes i
  have hfits : ¬ (i.operandBytes ++ rest).length + 1 < i.opcode.width := by rw [List.length_append]; omega
  have hdrop : (i.operandBytes ++ rest).drop (i.opcode.width - 1) = rest := List.drop_left' (by omega)
  rw [encode, List.cons_append, decode, ofByte_byte]
  simp only [if_neg hfits, build_operandBytes, hdrop]

/-- A byte sequence that decodes to an instruction begins with its encoding (R40, R46). -/
theorem eq_encode_append_of_decode {l rest : List Byte} {i : Instr} (h : decode l = .ok (i, rest)) :
    l = encode i ++ rest := by
  obtain ⟨b, tail, op, rfl, hop, hfits, rfl, rfl⟩ := decode_ok h
  rw [encode, opcode_build, operandBytes_build op (Nat.not_lt.2 hfits), List.cons_append, List.take_append_drop,
    byte_of_ofByte hop]

/-- Settles O2, one lemma for each direction. -/
theorem decodeAndEncodeAgree : Obligations.DecodeAndEncodeAgree := by
  refine fun l rest i => ⟨eq_encode_append_of_decode, ?_⟩
  rintro rfl
  exact decode_encode_append i rest

/-! ### The instruction value -/

theorem length_encode (i : Instr) : (encode i).length = i.width := length_operandBytes i

/-- The bytes of an instruction value are the encoding, filled up with zeros to the longest width (R42). -/
theorem tableWordBytes_encode (i : Instr) :
    tableWordBytes (8 * i.width) (instructionValue (encode i)) =
      encode i ++ List.replicate (longestWidth - i.width) 0 := by
  have hvalue : instructionValue (encode i) < 2 ^ (8 * i.width) := length_encode i ▸ instructionValue_lt (encode i)
  have hwidth : longestWidth = (encode i).length + (longestWidth - i.width) := by
    rw [length_encode]; exact (Nat.add_sub_cancel' (width_le_four i.opcode)).symm
  rw [tableWordBytes, Nat.mod_eq_of_lt hvalue]
  conv_lhs => rw [hwidth]
  exact littleEndianBytes_instructionValue (encode i) _

/-- Byte `k` of a sequence is the base-256 digit `k` of its little-endian value (R42). -/
theorem toNat_getElem?_eq_digit {l : List Byte} {k : Nat} {b : Byte} (h : l[k]? = some b) :
    b.toNat = instructionValue l / 256 ^ k % 256 := by
  induction l generalizing k with
  | nil => cases h
  | cons c rest ih =>
    have hc : c.toNat < 256 := c.isLt
    rw [instructionValue]
    cases k with
    | zero =>
      obtain rfl : c = b := Option.some.inj h
      omega
    | succ k =>
      rw [ih h, Nat.pow_succ', ← Nat.div_div_eq_div_mul]
      congr 2
      omega

/-- Settles O3: the bytes of the value begin with the encoding, which decodes whatever follows it. -/
theorem tableWordsDecodeToTheirInstruction : Obligations.TableWordsDecodeToTheirInstruction := by
  refine fun i => ⟨?decodes, fun k b hk => toNat_getElem?_eq_digit hk⟩
  case decodes => rw [decodeTableWord, tableWordBytes_encode, decode_encode_append]

/-! ### The form `loadimm rA, #v` -/

/-- A byte made of an integer is its residue modulo 256. -/
theorem toNat_ofInt_byte (x : Int) : ((BitVec.ofInt 8 x).toNat : Int) = x % 256 := by
  rw [BitVec.toNat_ofInt]; omega

/-- The immediate read as signed is the balanced residue of its two bytes (R45, R9). -/
theorem toInt_immediate (l h : Byte) : (immediate l h).toInt = ((h.toNat * 256 + l.toNat : Nat) : Int).bmod 65536 := by
  rw [immediate, BitVec.toInt_signExtend_of_le (by decide), BitVec.toInt_eq_toNat_bmod, toNat_append_byte]

/-- Settles O6: the two bytes are the digits of `v` modulo 65536, so their balanced residue is that of `v`. -/
theorem loadimmValueFormLoadsTheValue : Obligations.LoadimmValueFormLoadsTheValue := by
  refine fun a v => ⟨fun hlow hhigh => ⟨_, _, if_pos ⟨hlow, hhigh⟩, ?value⟩, fun hout => if_neg (by omega)⟩
  case value =>
    have hdigits : (((BitVec.ofInt 8 (v / 256 % 256)).toNat * 256 + (BitVec.ofInt 8 (v % 256)).toNat : Nat) : Int) =
        v % 65536 := by
      rw [Nat.cast_add, Nat.cast_mul, toNat_ofInt_byte, toNat_ofInt_byte]
      omega
    rw [toInt_immediate, hdigits]
    exact Int.emod_bmod v 65536

end Sys2Proof.Machine

/-! PROOFS. CONSTRUCT and SET_REG, the status codes, and the canonical form of memory (70_reset_and_hazards.md R93;
40_sequencer.md R63; 92_eei_decisions.md D10). -/

namespace Sys2Proof.Machine

/-! ### CONSTRUCT -/

/-- CONSTRUCT refuses exactly the images that do not fit (R93; D8). -/
theorem construct_eq_error_iff {image : List Byte} :
    construct image = .error .imageTooLong ↔ Config.memSize < image.length := by
  by_cases hfits : image.length ≤ Config.memSize
  · exact iff_of_false (by rw [construct_of_fits hfits]; exact nofun) (Nat.not_lt.2 hfits)
  · exact iff_of_true (if_neg hfits) (Nat.lt_of_not_le hfits)

/-- Settles O8: an image of 4096 bytes is one that fits, and its byte 4095 its last. -/
theorem oversizedImagesAreRefused : Obligations.OversizedImagesAreRefused := by
  refine ⟨fun image => construct_eq_error_iff, fun front b hfront => ?_⟩
  have hlen : (front ++ [b]).length ≤ 4096 := by rw [List.length_append, hfront]; rfl
  obtain ⟨s, hs, -, hbytes, -, -⟩ := constructGivesTheResetState (front ++ [b]) hlen
  exact ⟨s, hs, hbytes 4095 b (hfront ▸ List.getElem?_concat_length)⟩

/-- Settles O9: the empty image leaves memory empty, so the first fetch reads the opcode byte 0. -/
theorem resetIsTheMachineOfTheEmptyImage : Obligations.ResetIsTheMachineOfTheEmptyImage := by
  refine ⟨construct_of_fits (Nat.zero_le _), reg_reset 0, reg_reset, read_reset, rfl, rfl, rfl, ?firstStep⟩
  case firstStep =>
    have hip : State.reset.ip.toNat < Config.memSize := by rw [State.ip, reg_reset]; decide
    exact step_of_fetch_error rfl (fetch_illegal hip (by rw [read_reset]; rfl))

/-! ### SET_REG -/

/-- SET_REG with the number of a register writes that register (R63). -/
theorem hostSetReg_reg (r : Reg) (v : Word) (s : State) : hostSetReg r.val v s = .ok (s.setReg r v) := dif_pos r.isLt

/-- SET_REG with a number of 16 or more is an error (R63). -/
theorem hostSetReg_of_ge {i : Nat} (v : Word) (s : State) (hi : Config.nregs ≤ i) :
    hostSetReg i v s = .error .invalidRegisterAccess := dif_neg (Nat.not_lt.2 hi)

/-- What SET_REG does when it answers a state (R63). -/
theorem hostSetReg_ok {s t : State} {i : Nat} {v : Word} (h : hostSetReg i v s = .ok t) :
    ∃ r : Reg, i = r.val ∧ t = s.setReg r v := by
  obtain hi | hi := Nat.lt_or_ge i Config.nregs
  · exact ⟨⟨i, hi⟩, rfl, Except.ok.inj (h.symm.trans (hostSetReg_reg ⟨i, hi⟩ v s))⟩
  · rw [hostSetReg_of_ge v s hi] at h; cases h

/-- Settles O10: the write of one register keeps the run state, and with it the refusal of a step. -/
theorem setRegWritesOneRegister : Obligations.SetRegWritesOneRegister := by
  refine fun s i v => ⟨hostSetReg_of_ge v s, ?_⟩
  rintro r rfl
  have hkept : RegsKept [r] s (s.setReg r v) := fun j hj => by
    rw [reg_setReg, if_neg (Ne.symm (List.ne_of_not_mem_cons hj))]
  exact ⟨_, hostSetReg_reg r v s, reg_setReg_same, hkept, fun _ => rfl, ⟨rfl, rfl, rfl⟩, rfl,
    fun hstopped => step_of_not_running hstopped⟩

/-! ### The status codes -/

/-- No error kind has the code 0, which stands for no error (D10). -/
theorem errorKind_code_ne_zero (kind : ErrorKind) : kind.code ≠ 0 := by
  cases kind <;> exact Nat.succ_ne_zero _

/-- The error code is 0 exactly outside Errored (D10). -/
theorem errorCode_eq_zero_iff {r : RunState} : r.errorCode = 0 ↔ ∀ kind, r ≠ .errored kind := by
  cases r with
  | running => exact iff_of_true rfl nofun
  | halted => exact iff_of_true rfl nofun
  | errored kind => exact iff_of_false (errorKind_code_ne_zero kind) fun h => h kind rfl

/-- Settles O12: the codes are read off the table. -/
theorem statusCodesAreThoseOfTheTable : Obligations.StatusCodesAreThoseOfTheTable :=
  ⟨rfl, rfl, fun _ => rfl, rfl, rfl, rfl, fun _ => rfl, fun _ => errorCode_eq_zero_iff⟩

/-! ### The canonical form -/

/-- Settles O13: a memory that lists nothing is canonical. -/
theorem resetMeetsTheMemoryInvariant : Obligations.ResetMeetsTheMemoryInvariant := wf_empty

/-- Settles O14: CONSTRUCT writes a run of bytes that fits over the empty memory, and SET_REG writes none. -/
theorem hostOperationsKeepTheMemoryInvariant : Obligations.HostOperationsKeepTheMemoryInvariant := by
  refine ⟨fun image s h => ?construct, fun s t i v hwf h => ?setReg⟩
  case construct =>
    by_cases hfits : image.length ≤ Config.memSize
    · cases (construct_of_fits hfits).symm.trans h
      exact wf_writeBytes wf_empty (by rwa [Nat.zero_add])
    · cases (construct_eq_error_iff.2 (Nat.lt_of_not_le hfits)).symm.trans h
  case setReg =>
    obtain ⟨r, -, rfl⟩ := hostSetReg_ok h
    exact hwf

/-- An address that reads as another byte than an unlisted one is listed with that byte. -/
theorem mem_of_readCells_ne_unlisted {l : List Host.Cell} {a : Nat} (h : readCells l a ≠ Memory.unlisted) :
    (a, readCells l a) ∈ l := by
  induction l with
  | nil => exact absurd rfl h
  | cons c rest ih =>
    rw [readCells] at h ⊢
    split at h
    · next heq => rw [if_pos heq, ← heq]; exact List.mem_cons_self
    · next hne => rw [if_neg hne]; exact List.mem_cons_of_mem _ (ih h)

/-- A canonical list holds exactly the cells of what it reads as, the unlisted byte left out. -/
theorem mem_cells_iff {l : List Host.Cell} (hwf : CellsWf l) {c : Host.Cell} :
    c ∈ l ↔ readCells l c.1 = c.2 ∧ c.2 ≠ Memory.unlisted := by
  constructor
  · exact fun hc => ⟨readCells_of_mem hwf.1 hc, (hwf.2 c hc).2⟩
  · rintro ⟨hread, hne⟩
    have hmem := mem_of_readCells_ne_unlisted (hread.symm ▸ hne)
    rwa [hread] at hmem

/-- A canonical memory reads as unlisted above its last address (R24). -/
theorem read_beyond {m : Memory} (hwf : m.wf) {a : Nat} (ha : Config.memSize ≤ a) : m.read a = Memory.unlisted := by
  by_contra hne
  exact absurd (hwf.2 _ (mem_of_readCells_ne_unlisted hne)).1 (Nat.not_lt.2 ha)

/-- Settles O16: both lists hold the same cells, and rising addresses leave one order for them. -/
theorem equalBytesMakeEqualMemories : Obligations.EqualBytesMakeEqualMemories := by
  rintro ⟨l⟩ ⟨l'⟩ hwf hwf' hsame
  have hread (a : Nat) : readCells l a = readCells l' a := by
    obtain ha | ha := Nat.lt_or_ge a Config.memSize
    · exact hsame a ha
    · exact (read_beyond hwf ha).trans (read_beyond hwf' ha).symm
  have hmem (c : Host.Cell) : c ∈ l ↔ c ∈ l' := by rw [mem_cells_iff hwf, mem_cells_iff hwf', hread]
  have hirrefl : Std.Irrefl fun x y : Host.Cell => x.1 < y.1 := ⟨fun _ => Nat.lt_irrefl _⟩
  have hantisymm : Std.Antisymm fun x y : Host.Cell => x.1 < y.1 := ⟨fun _ _ h h' => absurd h' (Nat.lt_asymm h)⟩
  exact congrArg Memory.mk (hwf.1.eq_of_mem_iff hwf'.1 hmem)

end Sys2Proof.Machine

/-! PROOFS. What an instruction does, said once for all eight: the checks in their order, then one of five effects
(40_sequencer.md R55, R57, R61; 60_exceptions.md R83). -/

namespace Sys2Proof.Machine

/-! ### Well-formed operands -/

/-- A register is named by its own byte only (R44). -/
theorem regByte_of_toNat {b : Byte} {r : Reg} (h : b.toNat = r.val) : b = regByte r :=
  BitVec.eq_of_toNat_eq (by rw [h, toNat_regByte])

/-- The byte that names a register (R44). -/
theorem regByte_of_regOf {b : Byte} {r : Reg} (h : regOf b = some r) : b = regByte r := by
  rw [regOf] at h
  split at h
  · next hb => exact regByte_of_toNat (r := r) (congrArg Fin.val (Option.some.inj h))
  · cases h

@[simp] theorem regOf_regByte (r : Reg) : regOf (regByte r) = some r := regOf_eq (toNat_regByte r)

/-- A byte below 16 is the byte of a register (R44). -/
theorem exists_regByte_of_namesReg {b : Byte} (h : namesReg b = true) : ∃ r : Reg, b = regByte r :=
  ⟨⟨b.toNat, of_decide_eq_true h⟩, regByte_of_toNat rfl⟩

/-- An instruction is ill-formed when one of its register bytes is bad (R55). -/
theorem wellFormed_eq_false_iff {i : Instr} :
    i.wellFormed = false ↔ ∃ r ∈ i.regOperands, Config.nregs ≤ r.toNat := by
  simp [Instr.wellFormed, namesReg, List.all_eq_false]

/-- The instructions with operands named by registers, `L` and `H` of `loadimm` any bytes (R43, R44). -/
inductive RegInstr : Instr → Prop where
  | moveIf (a b c : Reg) : RegInstr (.moveIf (regByte a) (regByte b) (regByte c))
  | store (a b : Reg) : RegInstr (.store (regByte a) (regByte b))
  | load (a b : Reg) : RegInstr (.load (regByte a) (regByte b))
  | loadimm (a : Reg) (l h : Byte) : RegInstr (.loadimm (regByte a) l h)
  | sub (a b c : Reg) : RegInstr (.sub (regByte a) (regByte b) (regByte c))
  | out (a : Reg) : RegInstr (.out (regByte a))
  | exit : RegInstr .exit
  | outNumber (a : Reg) : RegInstr (.outNumber (regByte a))

/-- The register operands of a well-formed instruction are the bytes of registers (R44, R55). -/
theorem regInstr_of_wellFormed {i : Instr} (hwf : i.wellFormed = true) : RegInstr i := by
  have hreg : ∀ b ∈ i.regOperands, ∃ r : Reg, b = regByte r := fun b hb =>
    exists_regByte_of_namesReg (List.all_eq_true.1 hwf b hb)
  cases i with
  | moveIf a b c =>
    obtain ⟨⟨ra, rfl⟩, ⟨rb, rfl⟩, ⟨rc, rfl⟩⟩ := by simpa [Instr.regOperands] using hreg
    exact .moveIf ra rb rc
  | store a b =>
    obtain ⟨⟨ra, rfl⟩, ⟨rb, rfl⟩⟩ := by simpa [Instr.regOperands] using hreg
    exact .store ra rb
  | load a b =>
    obtain ⟨⟨ra, rfl⟩, ⟨rb, rfl⟩⟩ := by simpa [Instr.regOperands] using hreg
    exact .load ra rb
  | loadimm a l h =>
    obtain ⟨ra, rfl⟩ := hreg a (List.mem_singleton_self a)
    exact .loadimm ra l h
  | sub a b c =>
    obtain ⟨⟨ra, rfl⟩, ⟨rb, rfl⟩, ⟨rc, rfl⟩⟩ := by simpa [Instr.regOperands] using hreg
    exact .sub ra rb rc
  | out a =>
    obtain ⟨ra, rfl⟩ := hreg a (List.mem_singleton_self a)
    exact .out ra
  | exit => exact .exit
  | outNumber a =>
    obtain ⟨ra, rfl⟩ := hreg a (List.mem_singleton_self a)
    exact .outNumber ra

/-! ### The effects -/

/-- The address an instruction accesses 4 bytes of data at is `a` (R71). -/
abbrev DataAddress (s : State) (i : Instr) (a : Nat) : Prop := storeAddress s i = some a ∨ loadAddress s i = some a

/-- The string `out` and `out_number` offer the sink, every other instruction offering none (R75, R77). -/
def output (s : State) : Instr → Option (List Byte)
  | .out a => (regOf a).map fun r => characterBytes Config.outByteEncoding ((s.view 2 r).extractLsb' 0 8)
  | .outNumber a => (regOf a).map fun r => decimal (s.view 2 r).toInt
  | .moveIf _ _ _ | .store _ _ | .load _ _ | .loadimm _ _ _ | .sub _ _ _ | .exit => none

/-- What an instruction answers in `s` once all its checks have passed (R57, R67 to R78). -/
inductive Effect (s : State) : Instr → Result → Prop where
  /-- The IP advances and the destination register is written (R57). -/
  | writesReg {i : Instr} {a : Reg} (v : Word) (hdest : destination i = some a) :
      Effect s i (.next ((s.advance i.width).setReg a v))
  /-- A `move_if` whose condition does not hold only advances the IP (R67). -/
  | fallsThrough (a b c : Byte) : Effect s (.moveIf a b c) (.next (s.advance 4))
  /-- A `store` writes one word (R72). -/
  | writesMem {a b : Byte} {x : Nat} (v : Word) (haddr : storeAddress s (.store a b) = some x)
      (hin : x + 4 ≤ Config.memSize) :
      Effect s (.store a b) (.next ((s.advance 3).setMem (s.mem.writeWord x v)))
  /-- `exit` halts (R76). -/
  | halts : Effect s .exit (.next ((s.advance 1).setRun .halted))
  /-- `out` and `out_number` make one request to the sink (R74, R75, R77). -/
  | emits {i : Instr} {bytes : List Byte} (hout : output s i = some bytes) : Effect s i (s.emit i.width bytes)

variable {s t : State} {i : Instr} {r : Result} {bytes : List Byte}

/-- An instruction whose checks all pass has one of the effects (R55). -/
theorem exec_effect (hx : CanExecute i.width s) (hwf : i.wellFormed = true)
    (hdata : ∀ a, DataAddress s i a → a + 4 ≤ Config.memSize) : Effect s i (exec i s) := by
  suffices h : ∃ r, exec i s = r ∧ Effect s i r by
    obtain ⟨_, rfl, heffect⟩ := h
    exact heffect
  cases regInstr_of_wellFormed hwf with
  | moveIf a b c =>
    by_cases hc : s.view 4 c = 0
    · exact ⟨_, execMoveIf_of_eq_zero hx hc, .fallsThrough _ _ _⟩
    · exact ⟨_, execMoveIf_of_ne_zero hx hc, .writesReg _ (regOf_regByte a)⟩
  | store a b =>
    have haddr : storeAddress s (.store (regByte a) (regByte b)) = some (s.view 3 a).toNat := by simp [storeAddress]
    have hin := hdata _ (.inl haddr)
    exact ⟨_, execStore_ok hx (toNat_regByte a) (toNat_regByte b) hin, .writesMem _ haddr hin⟩
  | load a b =>
    have hin : (s.view 3 b).toNat + 4 ≤ Config.memSize := hdata _ (.inr (by simp [loadAddress]))
    exact ⟨_, execLoad_ok hx (toNat_regByte a) (toNat_regByte b) hin, .writesReg _ (regOf_regByte a)⟩
  | loadimm a l h => exact ⟨_, execLoadimm_ok hx (toNat_regByte a), .writesReg _ (regOf_regByte a)⟩
  | sub a b c =>
    exact ⟨_, execSub_ok hx (toNat_regByte a) (toNat_regByte b) (toNat_regByte c), .writesReg _ (regOf_regByte a)⟩
  | out a => exact ⟨_, execOut_ok hx (toNat_regByte a), .emits (by simp [output])⟩
  | exit => exact ⟨_, execExit_ok hx, .halts⟩
  | outNumber a => exact ⟨_, execOutNumber_ok hx (toNat_regByte a), .emits (by simp [output])⟩

/-! ### The checks -/

/-- Outside Running every instruction is refused (R61; D9). -/
theorem exec_of_not_running (hstopped : s.run ≠ .running) : exec i s = .refused .stepOutsideRunning := by
  cases i <;> exact whenRunning_of_not_running hstopped

/-- A well-formed instruction whose data address is out of range raises InvalidMemoryAccess (R71, R83). -/
theorem exec_of_outOfRange {a : Nat} (hx : CanExecute i.width s) (hwf : i.wellFormed = true)
    (haddr : DataAddress s i a) (hover : Config.memSize < a + 4) : exec i s = s.raise .invalidMemoryAccess := by
  cases regInstr_of_wellFormed hwf with
  | store b c =>
    obtain rfl : (s.view 3 b).toNat = a := by simpa [DataAddress, storeAddress, loadAddress] using haddr
    exact execStore_of_outOfRange hx hover
  | load b c =>
    obtain rfl : (s.view 3 c).toNat = a := by simpa [DataAddress, storeAddress, loadAddress] using haddr
    exact execLoad_of_outOfRange hx hover
  | moveIf | loadimm | sub | out | exit | outNumber => simp [DataAddress, storeAddress, loadAddress] at haddr

/-- In Running an instruction either raises the error of a check, changing nothing else, or has its effect (R83). -/
theorem exec_raise_or_effect (hrun : s.run = .running) (i : Instr) :
    (∃ kind, (kind = .invalidMemoryAccess ∨ kind = .invalidRegisterAccess) ∧ exec i s = s.raise kind) ∨
      (CanExecute i.width s ∧ i.wellFormed = true ∧ Effect s i (exec i s)) := by
  by_cases hspan : s.ip.toNat + i.width ≤ Config.memSize
  case neg => exact .inl ⟨_, .inl rfl, exec_of_overrun hrun (Nat.lt_of_not_le hspan)⟩
  have hx : CanExecute i.width s := ⟨hrun, hspan⟩
  cases hwf : i.wellFormed with
  | false => exact .inl ⟨_, .inr rfl, exec_of_badRegister hx (wellFormed_eq_false_iff.1 hwf)⟩
  | true =>
    by_cases hdata : ∃ a, DataAddress s i a ∧ Config.memSize < a + 4
    · obtain ⟨a, haddr, hover⟩ := hdata
      exact .inl ⟨_, .inl rfl, exec_of_outOfRange hx hwf haddr hover⟩
    · exact .inr ⟨hx, rfl, exec_effect hx hwf fun a haddr => Nat.not_lt.1 fun hover => hdata ⟨a, haddr, hover⟩⟩

/-- Everything a next state of an instruction can be: the old state in the error of a check, or the state of its effect. -/
theorem exec_next (h : exec i s = .next t) :
    (∃ kind, (kind = .invalidMemoryAccess ∨ kind = .invalidRegisterAccess) ∧ t = s.setRun (.errored kind)) ∨
      (CanExecute i.width s ∧ i.wellFormed = true ∧ Effect s i (.next t)) := by
  have hrun : s.run = .running := by
    by_contra hstopped
    cases (exec_of_not_running hstopped).symm.trans h
  obtain ⟨kind, hkind, hraise⟩ | heffect := exec_raise_or_effect hrun i
  · exact .inl ⟨kind, hkind, raise_next (hraise.symm.trans h)⟩
  · exact .inr (h ▸ heffect)

/-! ### Which effect it is -/

/-- An instruction that writes a register does not write to the sink (R14, R74). -/
theorem usesSink_of_destination {a : Reg} (h : destination i = some a) : usesSink i = false := by
  cases i with
  | moveIf | load | loadimm | sub => rfl
  | store | out | exit | outNumber => cases h

/-- The instructions with a string for the sink (R75, R77). -/
theorem output_cases (h : output s i = some bytes) :
    ∃ a : Reg,
      (i = .out (regByte a) ∧ bytes = characterBytes Config.outByteEncoding ((s.view 2 a).extractLsb' 0 8)) ∨
      (i = .outNumber (regByte a) ∧ bytes = decimal (s.view 2 a).toInt) := by
  cases i with
  | out b =>
    obtain ⟨a, ha, rfl⟩ := Option.map_eq_some_iff.1 h
    exact ⟨a, .inl ⟨by rw [regByte_of_regOf ha], rfl⟩⟩
  | outNumber b =>
    obtain ⟨a, ha, rfl⟩ := Option.map_eq_some_iff.1 h
    exact ⟨a, .inr ⟨by rw [regByte_of_regOf ha], rfl⟩⟩
  | moveIf | store | load | loadimm | sub | exit => cases h

/-- An instruction with a string for the sink is `out` or `out_number` (R74). -/
theorem usesSink_of_output (h : output s i = some bytes) : usesSink i = true := by
  obtain ⟨a, ⟨rfl, -⟩ | ⟨rfl, -⟩⟩ := output_cases h <;> rfl

/-- The effect of an instruction that writes to the sink is one request (R74). -/
theorem effect_of_usesSink (h : Effect s i r) (hsink : usesSink i = true) :
    ∃ bytes, output s i = some bytes ∧ r = s.emit i.width bytes := by
  cases h with
  | writesReg v hdest => rw [usesSink_of_destination hdest] at hsink; cases hsink
  | fallsThrough | writesMem | halts => cases hsink
  | emits hout => exact ⟨_, hout, rfl⟩

/-- An effect ends in Running or, for `exit`, in Halted, unless the sink fails or never answers (R58, R74, R76). -/
theorem effect_completes (hrun : s.run = .running) (h : Effect s i r) (hok : usesSink i = true → s.sink.answer = .ok) :
    ∃ t, r = .next t ∧ t.run = if i = .exit then .halted else .running := by
  cases h with
  | writesReg v hdest =>
    have hne : i ≠ .exit := by rintro rfl; cases hdest
    exact ⟨_, rfl, by rw [if_neg hne]; exact hrun⟩
  | fallsThrough | writesMem => exact ⟨_, rfl, hrun⟩
  | halts => exact ⟨_, rfl, rfl⟩
  | emits hout =>
    have hsink := usesSink_of_output hout
    have hne : i ≠ .exit := by rintro rfl; cases hsink
    exact ⟨_, emit_of_ok (hok hsink), by rw [if_neg hne]; exact hrun⟩

/-- Settles O30: all checks pass, and the effect completes. -/
theorem wellFormedInstructionsComplete : Obligations.WellFormedInstructionsComplete := by
  intro i s hx hwf hdata hok
  exact effect_completes hx.1 (exec_effect hx hwf hdata) hok

end Sys2Proof.Machine

/-! PROOFS. What an instruction leaves unchanged, and the memory invariant (10_state.md R14, R15; 20_memory.md R16, R24;
43_io_and_halt.md R74). -/

namespace Sys2Proof.Machine

variable {s t : State} {i : Instr} {r : Result} {w : Nat} {bytes : List Byte}

/-! ### A request to the sink -/

/-- A request to the sink writes no register but the IP (R74). -/
theorem regsKept_of_emit (h : s.emit w bytes = .next t) : RegsKept [0] s t := by
  obtain ⟨-, rfl⟩ | ⟨n, e, -, rfl⟩ := emit_next h
  · exact regsKept_advance
  · exact fun r hr => drawIp_reg (by simpa using hr)

/-- A request to the sink leaves memory as it is (R74). -/
theorem mem_of_emit (h : s.emit w bytes = .next t) : t.mem = s.mem := by
  obtain ⟨-, rfl⟩ | ⟨n, e, -, rfl⟩ := emit_next h <;> rfl

/-- A request to the sink takes one of its answers (R74). -/
theorem sink_of_emit (h : s.emit w bytes = .next t) : t.sink = s.sink.afterAnswer := by
  obtain ⟨-, rfl⟩ | ⟨n, e, -, rfl⟩ := emit_next h <;> rfl

/-- The sink accepts a first part of the string (R74). -/
theorem accepted_of_emit (h : s.emit w bytes = .next t) : ∃ more, t.accepted = s.accepted ++ more := by
  obtain ⟨-, rfl⟩ | ⟨n, e, -, rfl⟩ := emit_next h <;> exact ⟨_, rfl⟩

/-! ### The frame of an effect -/

/-- An effect writes the IP and the destination register only (R14). -/
theorem effect_reg (h : Effect s i r) (hres : r = .next t) {q : Reg} (hq : q ≠ 0)
    (hdest : destination i ≠ some q) : t.reg q = s.reg q := by
  have hadvance {w : Nat} : (s.advance w).reg q = s.reg q := by rw [reg_advance, if_neg hq]
  cases h with
  | writesReg v hd =>
    cases hres
    rw [reg_setReg, if_neg (by rintro rfl; exact hdest hd), hadvance]
  | fallsThrough | writesMem | halts => cases hres; exact hadvance
  | emits => exact regsKept_of_emit hres q (by simpa using hq)

/-- Only `store` has an effect on memory, and it writes one word in range (R14, R72). -/
theorem effect_mem (h : Effect s i r) (hres : r = .next t) :
    t.mem = s.mem ∨ ∃ a v, storeAddress s i = some a ∧ a + 4 ≤ Config.memSize ∧ t.mem = s.mem.writeWord a v := by
  cases h with
  | writesReg | fallsThrough | halts => cases hres; exact .inl rfl
  | writesMem v haddr hin => cases hres; exact .inr ⟨_, v, haddr, hin, rfl⟩
  | emits => exact .inl (mem_of_emit hres)

/-- An effect of an instruction that does not use the sink leaves the sink alone (R14, R74). -/
theorem effect_sink (h : Effect s i r) (hres : r = .next t) (hsink : usesSink i = false) : SinkKept s t := by
  cases h with
  | writesReg | fallsThrough | writesMem | halts => cases hres; exact ⟨rfl, rfl, rfl⟩
  | emits hout => rw [usesSink_of_output hout] at hsink; cases hsink

/-- The bytes the sink has accepted only grow at their end (R74). -/
theorem effect_accepted (h : Effect s i r) (hres : r = .next t) : ∃ more, t.accepted = s.accepted ++ more := by
  cases h with
  | writesReg | fallsThrough | writesMem | halts => cases hres; exact ⟨[], (List.append_nil _).symm⟩
  | emits => exact accepted_of_emit hres

/-- Settles O27: a failed check keeps everything but the run state, and an effect keeps its frame. -/
theorem everyInstructionKeepsItsFrame : Obligations.EveryInstructionKeepsItsFrame := by
  intro i s t h
  obtain ⟨kind, -, rfl⟩ | ⟨-, -, heffect⟩ := exec_next h
  · exact ⟨fun _ _ _ => rfl, fun _ _ => rfl, fun _ _ _ _ => rfl, fun _ => ⟨rfl, rfl, rfl⟩, [],
      (List.append_nil _).symm⟩
  refine ⟨fun q => effect_reg heffect rfl, ?memKept, ?memOutside, effect_sink heffect rfl, effect_accepted heffect rfl⟩
  case memKept =>
    intro hnone a
    obtain hmem | ⟨a, v, haddr, -, -⟩ := effect_mem heffect rfl
    · rw [hmem]
    · rw [hnone] at haddr; cases haddr
  case memOutside =>
    intro a haddr x hx
    obtain hmem | ⟨b, v, hb, -, hmem⟩ := effect_mem heffect rfl
    · rw [hmem]
    · obtain rfl : a = b := Option.some.inj (haddr.symm.trans hb)
      rw [hmem, read_writeWord_out _ _ _ hx]

/-! ### The memory invariant -/

/-- Every instruction keeps the canonical form of memory: a `store` has passed its range check (R29, R72). -/
theorem exec_keeps_memoryInv (hinv : MemoryInv s) (h : exec i s = .next t) : MemoryInv t := by
  obtain ⟨kind, -, rfl⟩ | ⟨-, -, heffect⟩ := exec_next h
  · exact hinv
  obtain hmem | ⟨a, v, -, hin, hmem⟩ := effect_mem heffect rfl
  · rwa [MemoryInv, hmem]
  · rw [MemoryInv, hmem]
    exact wf_writeWord hinv hin v

/-- Settles O15: an error of the fetch leaves memory alone, and an instruction keeps its canonical form. -/
theorem everyStepKeepsTheMemoryInvariant : Obligations.EveryStepKeepsTheMemoryInvariant := by
  intro s t hinv h
  obtain ⟨-, ⟨kind, -, rfl⟩ | ⟨i, -, hexec⟩⟩ := step_next h
  · exact hinv
  · exact exec_keeps_memoryInv hinv hexec

/-! ### The sink port -/

/-- An instruction other than `out` and `out_number` does not use the sink (R74). -/
theorem usesSink_eq_false (hout : ∀ a, i ≠ .out a) (hnumber : ∀ a, i ≠ .outNumber a) : usesSink i = false := by
  cases i with
  | moveIf | store | load | loadimm | sub | exit => rfl
  | out a => exact absurd rfl (hout a)
  | outNumber a => exact absurd rfl (hnumber a)

/-- A well-formed instruction that uses the sink and fits makes one request (R74, R75, R77). -/
theorem exec_of_usesSink (hx : CanExecute i.width s) (hwf : i.wellFormed = true) (hsink : usesSink i = true) :
    ∃ bytes, output s i = some bytes ∧ exec i s = s.emit i.width bytes := by
  have hdata (a : Nat) : ¬ DataAddress s i a := by
    cases i with
    | out | outNumber => rintro (h | h) <;> cases h
    | moveIf | store | load | loadimm | sub | exit => cases hsink
  exact effect_of_usesSink (exec_effect hx hwf fun a haddr => absurd haddr (hdata a)) hsink

/-- Settles O45: the port by the sink's three answers, the instructions by whether they use it. -/
theorem emitFollowsTheSinkPort : Obligations.EmitFollowsTheSinkPort := by
  refine ⟨fun s w bytes hx => ⟨exists_emitted hx, fun _ _ => exists_ioFailed hx, emit_of_never⟩, ?others, ?uses⟩
  case others =>
    intro i s t h hout hnumber
    obtain ⟨-, -, -, hsink, -⟩ := everyInstructionKeepsItsFrame i s t h
    exact hsink (usesSink_eq_false hout hnumber)
  case uses =>
    intro i s t h hx hwf hsink
    obtain ⟨bytes, -, hemit⟩ := exec_of_usesSink hx hwf hsink
    exact sink_of_emit (hemit.symm.trans h)

/-! ### The IP -/

/-- `x[0]` holds its advanced value after an effect that ends in Running or Halted and does not write it (R57). -/
theorem effect_reg_zero (h : Effect s i r) (hres : r = .next t) (hdest : destination i ≠ some 0)
    (hend : t.run = .running ∨ t.run = .halted) : t.reg 0 = (s.advance i.width).reg 0 := by
  cases h with
  | writesReg v hd =>
    cases hres
    rw [reg_setReg, if_neg (by rintro rfl; exact hdest hd)]
  | fallsThrough | writesMem | halts => cases hres; rfl
  | emits =>
    obtain ⟨-, rfl⟩ | ⟨n, e, -, rfl⟩ := emit_next hres
    · rfl
    · obtain h | h := hend <;> cases h

end Sys2Proof.Machine

/-! PROOFS. The step: its errors in their order, its end, and runs of steps (40_sequencer.md R51 to R61; 60_exceptions.md R81,
R83). -/

namespace Sys2Proof.Machine

variable {s t : State} {i : Instr} {rest : List Byte}

/-! ### The step of a decoded instruction -/

/-- An instruction that decodes at the IP passes its span check (R54). -/
theorem canExecute_of_decode (hrun : s.run = .running) (h : decode s.bytesAtIp = .ok (i, rest)) :
    CanExecute i.width s := ⟨hrun, (fetch_ok (fetch_of_decode h)).1⟩

/-- Settles O17: the fetch answers what the decoder reads at the IP. -/
theorem stepRunsTheDecodedInstruction : Obligations.StepRunsTheDecodedInstruction := by
  intro s i rest hrun hdecode
  exact step_of_fetch_ok hrun (fetch_of_decode hdecode)

/-- Settles O20: the fetch checks the span of the opcode it has read. -/
theorem spanCheckIsExact : Obligations.SpanCheckIsExact := by
  intro s op hrun hip hop
  have hsel : Opcode.ofByte (s.mem.read s.ip.toNat) = some op := by rw [hop, ofByte_byte]
  exact ⟨fun hover => step_of_fetch_error hrun (fetch_overrun hip hsel hover),
    fun hfits => step_of_fetch_ok hrun (fetch_fits hsel hfits)⟩

/-- Settles O29: `ip + w` does not wrap where the span fits. -/
theorem operandViewIsTheAdvancedState : Obligations.OperandViewIsTheAdvancedState := by
  intro s w i hfits
  refine ⟨?_, view_of_ne_zero, view_eq_advance_reg s i w⟩
  rw [view_zero, toNat_ip_add hfits]

/-- Settles O28: an error ends in neither run state, and an effect leaves the advanced IP. -/
theorem ipAdvancesByTheWidth : Obligations.IpAdvancesByTheWidth := by
  intro s t i rest hdecode hstep hend hdest
  have hfetch := fetch_of_decode hdecode
  have hfits := (fetch_ok hfetch).1
  rw [step_of_fetch_ok (step_next hstep).1 hfetch] at hstep
  obtain ⟨kind, -, rfl⟩ | ⟨-, -, heffect⟩ := exec_next hstep
  · obtain h | h := hend <;> cases h
  have hip : (t.reg 0).toNat = s.ip.toNat + i.width := by
    rw [effect_reg_zero heffect rfl hdest hend, toNat_reg_zero_advance hfits]
  exact ⟨hip, hip ▸ hfits⟩

/-! ### The errors -/

/-- Settles O22: the first three errors are the fetch's, the others those of the decoded instruction. -/
theorem errorsAreReportedInOrder : Obligations.ErrorsAreReportedInOrder := by
  intro s hrun
  refine ⟨fun hip => step_of_fetch_error hrun (fetch_beyond hip),
    fun hip hop => step_of_fetch_error hrun (fetch_illegal hip hop),
    fun op hip hop hover => step_of_fetch_error hrun (fetch_overrun hip hop hover), fun i rest hdecode => ?_⟩
  have hx := canExecute_of_decode hrun hdecode
  rw [stepRunsTheDecodedInstruction s i rest hrun hdecode]
  refine ⟨fun hbad => ?register, fun hwf a haddr hover => ?address, fun hwf hsink n e hfail => ?sink,
    fun hwf hdata hok => ?none⟩
  case register => exact exec_of_badRegister hx (wellFormed_eq_false_iff.1 hbad)
  case address => exact exec_of_outOfRange hx hwf haddr hover
  case sink =>
    obtain ⟨bytes, -, hemit⟩ := exec_of_usesSink hx hwf hsink
    exact ⟨_, hemit.trans (emit_of_fail hfail), rfl⟩
  case none =>
    obtain ⟨t, hexec, hend⟩ := wellFormedInstructionsComplete i s hx hwf hdata hok
    refine ⟨t, hexec, ?_⟩
    rw [hend]
    split
    · exact .inr rfl
    · exact .inl rfl

/-- An effect that ends in an error is a request the sink failed (R74, R81). -/
theorem effect_errored {r : Result} {kind : ErrorKind} (hx : CanExecute i.width s) (h : Effect s i r)
    (hres : r = .next t) (herr : t.run = .errored kind) :
    ∃ bytes n e, output s i = some bytes ∧ kind = .ioFailure e ∧ s.sink.answer = .fail n e ∧
      IoFailed i.width bytes n e s t := by
  have hrun : s.run ≠ .errored kind := by rw [hx.1]; exact nofun
  cases h with
  | writesReg | fallsThrough | writesMem => cases hres; exact absurd herr hrun
  | halts => cases hres; cases herr
  | @emits _ bytes hout =>
    obtain ⟨-, rfl⟩ | ⟨n, e, hfail, rfl⟩ := emit_next hres
    · exact absurd herr hrun
    · obtain ⟨u, hu, hio⟩ := exists_ioFailed (bytes := bytes) hx hfail
      cases hres.symm.trans hu
      cases herr
      exact ⟨bytes, n, e, hout, rfl, hfail, hio⟩

/-- A step that ends in an error leaves the old state in that error, or it ran an instruction whose request the sink failed
(R74, R81). -/
theorem step_errored {kind : ErrorKind} (h : step s = .next t) (herr : t.run = .errored kind) :
    ((∀ e, kind ≠ .ioFailure e) ∧ t = s.setRun (.errored kind)) ∨
      ∃ i bytes n e, s.fetch = .ok i ∧ output s i = some bytes ∧ kind = .ioFailure e ∧ s.sink.answer = .fail n e ∧
        IoFailed i.width bytes n e s t := by
  obtain ⟨-, ⟨k, hfetch, rfl⟩ | ⟨i, hfetch, hexec⟩⟩ := step_next h
  · cases herr
    obtain rfl | rfl := fetch_error hfetch <;> exact .inl ⟨fun _ => nofun, rfl⟩
  obtain ⟨k, hk, rfl⟩ | ⟨hx, -, heffect⟩ := exec_next hexec
  · cases herr
    obtain rfl | rfl := hk <;> exact .inl ⟨fun _ => nofun, rfl⟩
  · obtain ⟨bytes, n, e, hio⟩ := effect_errored hx heffect rfl herr
    exact .inr ⟨i, bytes, n, e, hfetch, hio⟩

/-- Settles O23: the kind tells which of the two ways a step ended in an error. -/
theorem errorsChangeOnlyTheRunState : Obligations.ErrorsChangeOnlyTheRunState := by
  intro s t kind h herr
  refine ⟨stepResult_eq_error_iff.2 herr, ?_⟩
  obtain ⟨hkind, ht⟩ | ⟨i, bytes, n, e, hfetch, hout, rfl, hfail, hio⟩ := step_errored h herr
  · exact ⟨fun _ => ht, fun e he => absurd he (hkind e)⟩
  refine ⟨fun hkind => absurd rfl (hkind e), ?ioFailure⟩
  case ioFailure =>
    rintro _ ⟨⟩
    obtain ⟨rest, hdecode⟩ := decode_of_fetch hfetch
    obtain ⟨a, ⟨rfl, rfl⟩ | ⟨rfl, rfl⟩⟩ := output_cases hout
    · exact ⟨a, rest, n, hfail, .inl ⟨hdecode, hio⟩⟩
    · exact ⟨a, rest, n, hfail, .inr ⟨hdecode, hio⟩⟩

/-! ### The end of a step -/

/-- An instruction in Running answers a next state, or it waits for a sink that never answers (R74). -/
theorem exec_ends_or_waits (hrun : s.run = .running) (i : Instr) :
    (∃ t, exec i s = .next t) ∨ (exec i s = .fault .sinkNeverAnswers ∧ s.sink.answer = .never ∧
      usesSink i = true ∧ i.wellFormed = true) := by
  obtain ⟨kind, -, hraise⟩ | ⟨hx, hwf, heffect⟩ := exec_raise_or_effect hrun i
  · exact .inl ⟨_, hraise⟩
  cases hsink : usesSink i with
  | false =>
    obtain ⟨t, ht, -⟩ := effect_completes hrun heffect fun h => absurd (hsink.symm.trans h) Bool.false_ne_true
    exact .inl ⟨t, ht⟩
  | true =>
    obtain ⟨bytes, -, hemit⟩ := effect_of_usesSink heffect hsink
    rw [hemit]
    cases hanswer : s.sink.answer with
    | ok => exact .inl ⟨_, emit_of_ok hanswer⟩
    | fail n e => exact .inl ⟨_, emit_of_fail hanswer⟩
    | never => exact .inr ⟨emit_of_never hanswer, rfl, rfl, hwf⟩

/-- Settles O26: an error of the fetch is a next state, and the fetched instruction is the decoded one. -/
theorem stepsEndUnlessTheSinkNeverAnswers : Obligations.StepsEndUnlessTheSinkNeverAnswers := by
  intro s hrun
  cases hfetch : s.fetch with
  | error kind => exact .inl ⟨_, step_of_fetch_error hrun hfetch⟩
  | ok i =>
    rw [step_of_fetch_ok hrun hfetch]
    obtain hend | ⟨hfault, hnever, hsink, hwf⟩ := exec_ends_or_waits hrun i
    · exact .inl hend
    · obtain ⟨rest, hdecode⟩ := decode_of_fetch hfetch
      exact .inr ⟨hfault, hnever, i, rest, hdecode, hsink, hwf⟩

/-! ### Runs -/

/-- A run outside Running that makes a step is refused (R61; D9). -/
theorem runFor_succ_of_refused {n : Nat} {x : Refusal} (h : step s = .refused x) : runFor (n + 1) s = .refused x := by
  rw [runFor, h]

/-- A run goes on from the state its first step leads to while that is Running (R59). -/
theorem runFor_succ_of_running {n : Nat} (h : step s = .next t) (hrun : t.run = .running) :
    runFor (n + 1) s = runFor n t := by
  simp only [runFor, h, hrun]

/-- A run ends with the first step that leads out of Running (R59). -/
theorem runFor_succ_of_ended {n : Nat} (h : step s = .next t) (hended : t.run ≠ .running) :
    runFor (n + 1) s = .next t := by
  simp only [runFor, h]
  cases hrun : t.run with
  | running => exact absurd hrun hended
  | halted | errored => rfl

/-- A run that makes a step and answers a next state has made it and either ended there or gone on (R59). -/
theorem runFor_succ_next {n : Nat} (h : runFor (n + 1) s = .next t) :
    ∃ u, step s = .next u ∧ ((u.run = .running ∧ runFor n u = .next t) ∨ (u.run ≠ .running ∧ u = t)) := by
  cases hstep : step s with
  | next u =>
    refine ⟨u, rfl, ?_⟩
    by_cases hrun : u.run = .running
    · exact .inl ⟨hrun, (runFor_succ_of_running hstep hrun).symm.trans h⟩
    · exact .inr ⟨hrun, Host.Outcome.next.inj ((runFor_succ_of_ended hstep hrun).symm.trans h)⟩
  | fault x => rw [runFor, hstep] at h; cases h
  | refused x => rw [runFor, hstep] at h; cases h

/-- A run of one step is that step (R59). -/
theorem runFor_one (s : State) : runFor 1 s = step s := by
  cases hstep : step s with
  | next t =>
    by_cases hrun : t.run = .running
    · exact runFor_succ_of_running hstep hrun
    · exact runFor_succ_of_ended hstep hrun
  | fault x => rw [runFor, hstep]
  | refused x => exact runFor_succ_of_refused hstep

/-- A run that is still in Running after `m` steps goes on for `n` more, and one that has ended stays where it is (R59). -/
theorem runFor_add {m : Nat} (n : Nat) (hs : s.run = .running) (h : runFor m s = .next t) :
    (t.run = .running → runFor (m + n) s = runFor n t) ∧ (t.run ≠ .running → runFor (m + n) s = .next t) := by
  induction m generalizing s with
  | zero =>
    obtain rfl : s = t := Host.Outcome.next.inj h
    exact ⟨fun _ => by rw [Nat.zero_add], fun hended => absurd hs hended⟩
  | succ m ih =>
    rw [Nat.add_right_comm]
    obtain ⟨u, hstep, ⟨hu, hrest⟩ | ⟨hended, rfl⟩⟩ := runFor_succ_next h
    · rw [runFor_succ_of_running hstep hu]
      exact ih hu hrest
    · exact ⟨fun hrun => absurd hrun hended, fun _ => runFor_succ_of_ended hstep hended⟩

/-- Settles O31: by the first step of the run. -/
theorem runsComposeAndEndOnce : Obligations.RunsComposeAndEndOnce :=
  ⟨fun s => ⟨rfl, runFor_one s⟩, fun _ n _ _ hrun h => runFor_add n hrun h⟩

/-- Settles O24: a step, and with it a run that makes one, asks for the run state first, as every instruction does. -/
theorem noStepOutsideRunning : Obligations.NoStepOutsideRunning := by
  intro s hstopped
  have hstep := step_of_not_running hstopped
  exact ⟨hstep, fun _ => runFor_succ_of_refused hstep, fun _ => exec_of_not_running hstopped⟩

/-! ### Placing an instruction -/

/-- A run of bytes read in two parts (R27). -/
theorem readBytes_add (m : Memory) (a j n : Nat) :
    m.readBytes a (j + n) = m.readBytes a j ++ m.readBytes (a + j) n := by
  induction j generalizing a with
  | zero => rw [Nat.zero_add]; rfl
  | succ j ih =>
    rw [Nat.add_right_comm, Memory.readBytes, Memory.readBytes, ih, List.cons_append, Nat.add_assoc a 1 j, Nat.add_comm 1 j]

/-- A run of bytes reads back as it was written. -/
theorem readBytes_writeBytes {m : Memory} (hwf : m.wf) {a : Nat} {l : List Byte}
    (hfits : a + l.length ≤ Config.memSize) : (m.writeBytes a l).readBytes a l.length = l := by
  refine List.ext_getElem (length_readBytes _ _ _) fun k hk hk' => ?_
  rw [getElem_readBytes, read_writeBytes_in hwf hfits hk']

/-- The bytes written at the IP are the first a step fetches. -/
theorem bytesAtIp_writeBytes (hinv : MemoryInv s) {l : List Byte} (hfits : s.ip.toNat + l.length ≤ Config.memSize) :
    ∃ tail, (s.setMem (s.mem.writeBytes s.ip.toNat l)).bytesAtIp = l ++ tail := by
  obtain ⟨n, hn⟩ : ∃ n, Config.memSize - s.ip.toNat = l.length + n :=
    Nat.exists_eq_add_of_le (Nat.le_sub_of_add_le' hfits)
  rw [State.bytesAtIp, setMem_ip, setMem_mem, hn, readBytes_add, readBytes_writeBytes hinv hfits]
  exact ⟨_, rfl⟩

/-- Where four bytes fit, an instruction placed at the IP is what the decoder reads there (R42). -/
theorem decode_withFetchWord (hinv : MemoryInv s) (hfits : s.ip.toNat + 4 ≤ Config.memSize) (i : Instr) :
    ∃ rest, decode (s.withFetchWord (8 * i.width) (instructionValue (encode i))).bytesAtIp = .ok (i, rest) := by
  have hlen : (tableWordBytes (8 * i.width) (instructionValue (encode i))).length = 4 := length_littleEndianBytes _ _
  obtain ⟨tail, htail⟩ := bytesAtIp_writeBytes hinv (hlen.symm ▸ hfits)
  rw [State.withFetchWord, State.placeAtIp, placeBytes_of_fits (hlen.symm ▸ hfits), htail, tableWordBytes_encode,
    List.append_assoc]
  exact ⟨_, decode_encode_append i _⟩

/-- Settles O33: the placed instruction is the decoded one. -/
theorem placedInstructionIsTheNextOneRun : Obligations.PlacedInstructionIsTheNextOneRun := by
  intro i s hinv hrun hfits
  obtain ⟨rest, hdecode⟩ := decode_withFetchWord hinv hfits i
  exact stepRunsTheDecodedInstruction _ i rest hrun hdecode

/-! ### The bytes the sink has accepted -/

section

variable {k k' : Result} {f f' : Reg → Result} {before : List Byte}

@[simp] theorem acceptedAfter_ip : (s.acceptedAfter before).ip = s.ip := rfl
@[simp] theorem acceptedAfter_run : (s.acceptedAfter before).run = s.run := rfl
@[simp] theorem acceptedAfter_view (w : Nat) (i : Reg) : (s.acceptedAfter before).view w i = s.view w i := rfl
@[simp] theorem acceptedAfter_fetch : (s.acceptedAfter before).fetch = s.fetch := rfl

/-- An error does not look at the accepted bytes (R81). -/
theorem raise_acceptedAfter (kind : ErrorKind) :
    (s.acceptedAfter before).raise kind = mapNext (State.acceptedAfter before) (s.raise kind) := rfl

theorem whenRunning_acceptedAfter (h : k' = mapNext (State.acceptedAfter before) k) :
    whenRunning (s.acceptedAfter before) k' = mapNext (State.acceptedAfter before) (whenRunning s k) := by
  rw [whenRunning, whenRunning, acceptedAfter_run]
  split
  · exact h
  · rfl
  · rfl

/-- The checks every handler begins with do not look at the accepted bytes (R54, R61). -/
theorem handler_acceptedAfter {w : Nat} (h : k' = mapNext (State.acceptedAfter before) k) :
    handler w (s.acceptedAfter before) k' = mapNext (State.acceptedAfter before) (handler w s k) := by
  refine whenRunning_acceptedAfter ?_
  rw [checkSpan, checkSpan, acceptedAfter_ip, h, raise_acceptedAfter, apply_ite (mapNext _)]

theorem checkReg_acceptedAfter {r : Byte} (h : ∀ i, f' i = mapNext (State.acceptedAfter before) (f i)) :
    checkReg r (s.acceptedAfter before) f' = mapNext (State.acceptedAfter before) (checkReg r s f) := by
  rw [checkReg, checkReg, raise_acceptedAfter, apply_dite (mapNext _)]
  simp only [h]

theorem checkWordAt_acceptedAfter {a : Word} (h : k' = mapNext (State.acceptedAfter before) k) :
    checkWordAt a (s.acceptedAfter before) k' = mapNext (State.acceptedAfter before) (checkWordAt a s k) := by
  rw [checkWordAt, checkWordAt, h, raise_acceptedAfter, apply_ite (mapNext _)]

/-- What the sink accepts comes after what it had accepted (R74). -/
theorem sinkAccepts_acceptedAfter (bytes : List Byte) :
    (s.acceptedAfter before).sinkAccepts bytes = (s.sinkAccepts bytes).acceptedAfter before := by
  rw [State.sinkAccepts, State.acceptedAfter, List.append_assoc]; rfl

/-- A request to the sink only appends to the accepted bytes (R74). -/
theorem emit_acceptedAfter (w : Nat) (bytes : List Byte) :
    (s.acceptedAfter before).emit w bytes = mapNext (State.acceptedAfter before) (s.emit w bytes) := by
  cases hanswer : s.sink.answer with
  | ok =>
    rw [emit_of_ok hanswer, emit_of_ok (s := s.acceptedAfter before) hanswer]
    exact congrArg Host.Outcome.next (sinkAccepts_acceptedAfter (s := s.advance w) bytes)
  | fail n e =>
    rw [emit_of_fail hanswer, emit_of_fail (s := s.acceptedAfter before) hanswer]
    exact congrArg (fun t : State => Host.Outcome.next (t.setRun (.errored (.ioFailure e))))
      (sinkAccepts_acceptedAfter (s := s.drawIp w) (bytes.take n))
  | never => rw [emit_of_never hanswer, emit_of_never (s := s.acceptedAfter before) hanswer]; rfl

/-- No instruction reads what the sink has accepted (R74). -/
theorem exec_acceptedAfter (i : Instr) :
    exec i (s.acceptedAfter before) = mapNext (State.acceptedAfter before) (exec i s) := by
  cases i with
  | moveIf a b c =>
    refine handler_acceptedAfter <| checkReg_acceptedAfter fun _ => checkReg_acceptedAfter fun _ =>
      checkReg_acceptedAfter fun _ => ?_
    simp only [acceptedAfter_view, mapNext, apply_ite (State.acceptedAfter before)]
    rfl
  | store a b =>
    exact handler_acceptedAfter <| checkReg_acceptedAfter fun _ => checkReg_acceptedAfter fun _ =>
      checkWordAt_acceptedAfter rfl
  | load a b =>
    exact handler_acceptedAfter <| checkReg_acceptedAfter fun _ => checkReg_acceptedAfter fun _ =>
      checkWordAt_acceptedAfter rfl
  | loadimm a l h => exact handler_acceptedAfter <| checkReg_acceptedAfter fun _ => rfl
  | sub a b c =>
    exact handler_acceptedAfter <| checkReg_acceptedAfter fun _ => checkReg_acceptedAfter fun _ =>
      checkReg_acceptedAfter fun _ => rfl
  | out a => exact handler_acceptedAfter <| checkReg_acceptedAfter fun _ => emit_acceptedAfter 2 _
  | exit => exact handler_acceptedAfter rfl
  | outNumber a => exact handler_acceptedAfter <| checkReg_acceptedAfter fun _ => emit_acceptedAfter 2 _

end

/-- Settles O32: neither the fetch nor an instruction reads the accepted bytes. -/
theorem acceptedBytesAreNeverRead : Obligations.AcceptedBytesAreNeverRead := by
  refine fun s before => whenRunning_acceptedAfter ?_
  rw [acceptedAfter_fetch]
  cases s.fetch with
  | ok i => exact exec_acceptedAfter i
  | error kind => exact raise_acceptedAfter kind

end Sys2Proof.Machine

/-! PROOFS. Jumps, data accesses and stored code (30_encoding.md R49; 20_memory.md R29, R38). -/

namespace Sys2Proof.Machine

variable {s : State} {w : Nat}

/-! ### Register 0 as an operand -/

/-- A `loadimm` of a high byte of 0x80 or more gives an address beyond memory (R45, R49). -/
theorem memSize_le_immediate {l h : Byte} (hh : 0x80 ≤ h.toNat) : Config.memSize ≤ (immediate l h).toNat := by
  rw [toNat_immediate, if_pos hh]
  exact Nat.le_trans (by decide) (Nat.le_add_left _ _)

/-- Where the span fits, the view of register 0 is not 0: a `move_if` on it always copies (R49, R56; D2). -/
theorem view_zero_ne_zero (hw : 0 < w) (hfits : s.ip.toNat + w ≤ Config.memSize) : s.view w 0 ≠ 0 := by
  intro h0
  have hsum : s.ip.toNat + w = 0 := by rw [← toNat_ip_add hfits, ← view_zero, h0]; rfl
  omega

/-- Settles O38: each idiom is its instruction with register 0 as one operand, whose byte is 0. -/
theorem registerZeroIdiomsTransferControl : Obligations.RegisterZeroIdiomsTransferControl := by
  intro s
  refine ⟨fun l h hx => ?jumpToImmediate, fun b c hx hc hb => ?jumpIf, fun a b hx hb => ?copy, fun c hx hc => ?jumpBack,
    fun b hx hb hin => ?jumpToWord⟩
  case jumpToImmediate =>
    have hip : ((s.advance 4).setReg 0 (immediate l h)).ip = immediate l h := reg_setReg_same
    refine ⟨_, execLoadimm_ok (ra := 0) hx rfl, hip, fun hh => ?_⟩
    exact fetchBeyondMemoryRaises _ hx.1 (by rw [reg_zero, hip]; exact memSize_le_immediate hh)
  case jumpIf =>
    rw [← view_of_ne_zero (w := 4) hc, ← view_of_ne_zero (w := 4) hb]
    by_cases h0 : s.view 4 c = 0
    · exact ⟨_, execMoveIf_of_eq_zero (a := 0) hx h0, fun hne => absurd h0 hne, fun _ => toNat_reg_zero_advance hx.2⟩
    · exact ⟨_, execMoveIf_of_ne_zero (a := 0) hx h0, fun _ => reg_setReg_same, fun heq => absurd heq h0⟩
  case copy =>
    rw [← view_of_ne_zero (w := 4) hb]
    exact ⟨_, execMoveIf_of_ne_zero (c := 0) hx (view_zero_ne_zero (by decide) hx.2), reg_setReg_same⟩
  case jumpBack =>
    refine ⟨_, execSub_ok (ra := 0) (rb := 0) hx rfl rfl (toNat_regByte c), ?_⟩
    rw [← reg_zero, reg_setReg_same, toNat_subWrap, view_zero, toNat_ip_add hx.2, view_of_ne_zero hc]
  case jumpToWord =>
    rw [← view_of_ne_zero (w := 3) hb] at hin ⊢
    exact ⟨_, execLoad_ok (ra := 0) hx rfl (toNat_regByte b) hin, reg_setReg_same⟩

/-! ### Data addresses -/

/-- Settles O40: the range check is the last check of both instructions, and no check looks at the alignment. -/
theorem dataAddressRangeIsExact : Obligations.DataAddressRangeIsExact := by
  intro s a b hx
  exact ⟨fun hin => ⟨_, execStore_ok hx (toNat_regByte a) (toNat_regByte b) hin, hx.1⟩,
    fun hover => execStore_of_outOfRange hx hover,
    fun hin => ⟨_, execLoad_ok hx (toNat_regByte a) (toNat_regByte b) hin, hx.1⟩,
    fun hover => execLoad_of_outOfRange hx hover⟩

/-! ### Stored code -/

/-- Settles O44: the next step fetches at the advanced IP the byte the word write has put there. -/
theorem storesAreSeenByTheNextFetch : Obligations.StoresAreSeenByTheNextFetch := by
  intro s a b k hx hinv hin hk hnext
  refine ⟨_, execStore_ok hx (toNat_regByte a) (toNat_regByte b) hin, ?_⟩
  generalize ht : (s.advance 3).setMem (s.mem.writeWord (s.view 3 a).toNat (s.view 3 b)) = t
  have hrun : t.run = .running := by rw [← ht]; exact hx.1
  have hip : t.ip.toNat = (s.view 3 a).toNat + k := by
    rw [← ht, setMem_ip, ip_advance, toNat_ip_add hx.2, hnext]
  have hlt : t.ip.toNat < Config.memSize := by rw [hip]; exact Nat.lt_of_lt_of_le (Nat.add_lt_add_left hk _) hin
  have hbyte : (t.mem.read t.ip.toNat).toNat = (s.view 3 b).toNat / 256 ^ k % 256 := by
    rw [hip, ← ht]; exact toNat_read_writeWord_in hinv hin _ hk
  rw [← hbyte]
  refine ⟨fun hexit => ?exit, fun hzero => ?illegal⟩
  case exit =>
    have hop : t.mem.read t.ip.toNat = Opcode.exit.byte := BitVec.eq_of_toNat_eq hexit
    exact step_of_opcode (op := .exit) hrun (fun _ => rfl) hop hlt
  case illegal => exact step_of_fetch_error hrun (fetch_illegal hlt (ofByte_eq_none_iff.2 (.inl hzero)))

end Sys2Proof.Machine
